-- ==== Sys2Proof/Word.lean ====
section
/-!
DEFINITION. The word types of the block (00_scope.md R7, R8; 10_state.md section 1.1): bytes, two-digit fields, digits,
the two channels.

A timestamp (10_state.md R24, R29; 20_memory.md R53) and the completed-lap count (R32) have the widths that `Cfg.TS_WIDTH` and
`Cfg.LAPCOUNT_WIDTH` give them (00_scope.md R5), so they are natural numbers, reduced modulo 2 to the width where they are
written and where they are compared (Machine/Ops.lean); log 11.
-/
namespace Sys2Proof

/-- A byte of the display wire, `b[7:0]` (30_encoding.md R80, R81). -/
abbrev Byte := BitVec 8

/-- A two-digit field, minutes or seconds (10_state.md R27, R28, R30; 30_encoding.md R90 "because `v` ≤ 99"), a bounded natural as
D12 and U3 allow. DESIGN CHOICE, log 12. -/
abbrev TwoDigits := Fin 100

/-- A decimal digit 0 to 9: "the operand's type is the ten digits" (40_segment_codec.md R103). -/
abbrev Digit := Fin 10

/-- A digit's place in the frame, 0 to 3 (40_segment_codec.md R104). -/
abbrev Place := Fin 4

/-- A 7-bit segment pattern (40_segment_codec.md R100). -/
abbrev Segments := BitVec 7

/-- The two display channels (00_scope.md R7). -/
inductive Channel
  | A
  | B
  deriving DecidableEq, Repr, Inhabited

/-- The other channel. -/
def Channel.other : Channel → Channel
  | .A => .B
  | .B => .A

/-- One value for each channel, `X[ch]` in the spec's notation. -/
structure PerChannel (α : Type) where
  a : α
  b : α
  deriving DecidableEq, Repr, Inhabited

/-- `X[ch]`. -/
def PerChannel.get {α : Type} (x : PerChannel α) : Channel → α
  | .A => x.a
  | .B => x.b

/-- `X` with `X[ch]` replaced. -/
def PerChannel.set {α : Type} (x : PerChannel α) (ch : Channel) (v : α) : PerChannel α :=
  match ch with
  | .A => { x with a := v }
  | .B => { x with b := v }

/-- The direction of a data wire, the spec's `in` and `out` (10_state.md R34). -/
inductive Direction
  | input
  | output
  deriving DecidableEq, Repr, Inhabited

/-- A DigitFrame `(d0, d1, d2, d3, colon)` (10_state.md R36), `d0` the first digit sent. -/
structure DigitFrame where
  d0 : Digit
  d1 : Digit
  d2 : Digit
  d3 : Digit
  colon : Bool
  deriving DecidableEq, Repr, Inhabited

end Sys2Proof
end

