-- ==== Sys2Proof/Machine/Registers.lean ====
section
/-!
DEFINITION. The register groups of the state record `S` (10_state.md R20): BeamState, LapTimerState, the pin registers of
one channel, and the three together as power-up leaves them.
-/
namespace Sys2Proof.Machine

/-- BeamState (10_state.md R22 to R24): 1 means beam uninterrupted. -/
structure BeamState where
  /-- `S.beam_last_raw` (R22). -/
  lastRaw : Bool
  /-- `S.beam_debounced` (R23): 1 is STABLE_HIGH, 0 is STABLE_LOW. -/
  debounced : Bool
  /-- `S.beam_change_ts` (R24), below 2^`W`. -/
  changeTs : Nat
  deriving DecidableEq, Repr, Inhabited

/-- LapTimerState (10_state.md R26 to R32). -/
structure LapState where
  /-- `S.lap_running` (R26): 0 is IDLE, 1 is RUNNING. -/
  running : Bool
  /-- `S.lap_min` (R27). -/
  min : TwoDigits
  /-- `S.lap_sec` (R28). -/
  sec : TwoDigits
  /-- `S.lap_tick_ref` (R29), below 2^`W`. -/
  tickRef : Nat
  /-- `S.lap_last_min` (R30). -/
  lastMin : TwoDigits
  /-- `S.lap_last_sec` (R30). -/
  lastSec : TwoDigits
  /-- `S.lap_valid` (R31). -/
  valid : Bool
  /-- `S.lap_count` (R32), below 2^`Cfg.LAPCOUNT_WIDTH`. -/
  count : Nat
  deriving DecidableEq, Repr, Inhabited

/-- The pin registers of one channel (10_state.md R34). The latch keeps its value while the direction is `in`. -/
structure PinRegs where
  /-- `S.pin[ch].clk`. -/
  clk : Bool
  /-- `S.pin[ch].dio_out`. -/
  dioOut : Bool
  /-- `S.pin[ch].dio_dir`. -/
  dioDir : Direction
  deriving DecidableEq, Repr, Inhabited

/-- The registers that hardware reset leaves unspecified (10_state.md R42, 70_reset_and_hazards.md R230). -/
structure PowerUp where
  beam : BeamState
  lap : LapState
  pins : PerChannel PinRegs
  deriving DecidableEq, Repr, Inhabited

end Sys2Proof.Machine
end

