-- ==== Sys2Proof/Config.lean ====
section
/-!
DEFINITION. The configuration record `Cfg` (00_scope.md R5), when it is well formed (R6), the default configuration, and the
free values of the environment.
-/
namespace Sys2Proof

/-- `Cfg.LAP_POLICY` (00_scope.md R5, 43_lap_timer.md R164). -/
inductive LapPolicy
  | restartOnLap
  | pauseOnLap
  deriving DecidableEq, Repr

/-- The fields of `Cfg` (00_scope.md R5), before the check of R6. -/
structure CfgData where
  /-- `TS_WIDTH`, written `W`, a positive integer. -/
  tsWidth : Nat
  /-- `DEBOUNCE_WINDOW_US`. -/
  debounceWindowUs : Nat
  /-- `TICK_PERIOD_US`. -/
  tickPeriodUs : Nat
  /-- `ACK_WINDOW_US`. -/
  ackWindowUs : Nat
  /-- `T_HOLD[ch]`, microseconds. -/
  tHold : PerChannel Nat
  /-- `BRIGHTNESS[ch]`, `none` or an integer. OPEN. -/
  brightness : PerChannel (Option Nat)
  /-- `LAP_POLICY`. -/
  lapPolicy : LapPolicy
  /-- `SEG[d]`. OPEN. -/
  seg : Vector Segments 10
  /-- `CMD_DATA_AUTOINC`. OPEN. -/
  cmdDataAutoinc : Byte
  /-- `CMD_ADDR_BASE`. OPEN. -/
  cmdAddrBase : Byte
  /-- `CMD_DISPLAY_ON`. -/
  cmdDisplayOn : Byte
  /-- `COLON_MASK`. -/
  colonMask : Byte
  /-- `COLON_ON`. -/
  colonOn : Bool
  /-- `ACK_NINTH_CLOCK`. OPEN. -/
  ackNinthClock : Bool
  /-- `BEAM_IDLE_LEVEL`. -/
  beamIdleLevel : Bool
  /-- `LAPCOUNT_WIDTH`, a positive integer. -/
  lapCountWidth : Nat
  /-- `MIN_MAX`. -/
  minMax : Nat
  /-- `SEC_MAX`. -/
  secMax : Nat
  /-- `PIN_CLK[ch]`. OPEN. -/
  pinClk : PerChannel Nat
  /-- `PIN_DIO[ch]`. OPEN. -/
  pinDio : PerChannel Nat
  /-- `PIN_BEAM`. OPEN. -/
  pinBeam : Nat
  deriving DecidableEq, Repr

/-- A brightness is `none` or in [0, 7] (00_scope.md R6, 30_encoding.md R89). -/
def brightnessOk (b : Option Nat) : Bool :=
  match b with
  | none => true
  | some n => decide (n ≤ 7)

/-- When a configuration is well formed (00_scope.md R6). Each pattern fits 7 bits by its type. The widths are positive (R5).
That `MIN_MAX` and `SEC_MAX` are at most 99, so that a field has two decimal digits (30_encoding.md R90, 40_segment_codec.md
R103), is not in R6: DESIGN CHOICE, log 26. -/
def CfgData.wellFormed (c : CfgData) : Bool :=
  decide (1 ≤ c.tsWidth) && decide (1 ≤ c.lapCountWidth) && decide (c.minMax ≤ 99) && decide (c.secMax ≤ 99)
    && decide (c.debounceWindowUs < 2 ^ c.tsWidth)
    && decide (c.tickPeriodUs < 2 ^ c.tsWidth)
    && decide (2 ≤ c.tHold.a) && decide (2 ≤ c.tHold.b)
    && brightnessOk c.brightness.a && brightnessOk c.brightness.b
    && decide c.seg.toList.Nodup
    && decide [c.pinClk.a, c.pinDio.a, c.pinClk.b, c.pinDio.b, c.pinBeam].Nodup

/-- A configuration the model takes: the data with its check. "A model refuses a configuration that is not well formed"
(00_scope.md R6); its type excludes it, as D33 says. DESIGN CHOICE, log 13. -/
structure Cfg extends CfgData where
  wf : toCfgData.wellFormed = true
  deriving DecidableEq, Repr

/-- Construction of a configuration: the ill-formed ones are refused (00_scope.md R6, U8). -/
def Cfg.ofData (d : CfgData) : Option Cfg :=
  if h : d.wellFormed = true then some { toCfgData := d, wf := h } else none

namespace Config

/-- The default segment table (40_segment_codec.md R102), general knowledge and not sourced, says the spec. -/
def defaultSeg : Vector Segments 10 :=
  #v[0x3F#7, 0x06#7, 0x5B#7, 0x4F#7, 0x66#7, 0x6D#7, 0x7D#7, 0x07#7, 0x7F#7, 0x6F#7]

/-- The default configuration of 00_scope.md R5 as 95_test_vectors.md fixes it for its vectors. OPEN fields without a
default there (the pin identifiers) are DESIGN CHOICE, log 10. -/
def defaultData : CfgData where
  tsWidth := 32
  debounceWindowUs := 50000
  tickPeriodUs := 1000000
  ackWindowUs := 5
  tHold := { a := 3, b := 3 }
  brightness := { a := none, b := none }
  lapPolicy := .restartOnLap
  seg := defaultSeg
  cmdDataAutoinc := 0x40#8
  cmdAddrBase := 0xC0#8
  cmdDisplayOn := 0x88#8
  colonMask := 0x80#8
  colonOn := true
  ackNinthClock := false
  beamIdleLevel := true
  lapCountWidth := 32
  minMax := 99
  secMax := 59
  pinClk := { a := 0, b := 2 }
  pinDio := { a := 1, b := 3 }
  pinBeam := 4

/-- The default configuration, checked. -/
def default : Cfg := { toCfgData := defaultData, wf := by decide }

/-- Free value: the raw beam level of the `n`-th step that no stimulus line gives (20_memory.md R52: "any sequence of bits is
a possible input"). No body; log 2. -/
opaque sampledRaw : Nat → Bool

/-- Free value: the clock sample of the `n`-th step that no stimulus line gives (20_memory.md R53: "The model draws the value
freely"), reduced modulo 2^`W` where it is used. No body; log 2. -/
opaque sampledNow : Nat → Nat

/-- Free value: the registers after the `n`-th RESET stimulus (70_reset_and_hazards.md R230, U5: "any value"), cut to their
widths where they are used. No body; log 9. -/
opaque powerUp : Nat → Machine.PowerUp

/-- Free value: `Ext.dio[ch]` after a trace of length `n` (20_memory.md R54: "an arbitrary bit and no rule of the block reads
it"). No body; log 19. -/
opaque extDio : Channel → Nat → Bool

end Config
end Sys2Proof
end

