-- ==== Sys2Proof/Syntax.lean ====
section
/-!
DEFINITION. The operations of the block: one constructor for each row of opcode_table.json (30_encoding.md R92 for the
operations, R82 to R85 for the wire bytes).
-/
namespace Sys2Proof

/-- The operations and wire bytes, with the operands their rules give. -/
inductive Instr
  /-- CLKW, `ClkWrite(ch, v)` (R110). -/
  | clkw (ch : Channel) (v : Bool)
  /-- DIOW, `DioWrite(ch, v)` (R111). -/
  | diow (ch : Channel) (v : Bool)
  /-- DIOD, `DioDir(ch, d)` (R112). -/
  | diod (ch : Channel) (d : Direction)
  /-- DELAY, `Delay(ch, n)` (R113). -/
  | delay (ch : Channel) (n : Nat)
  /-- START (R115). -/
  | start (ch : Channel)
  /-- STOP (R117). -/
  | stop (ch : Channel)
  /-- WRITE_BYTE (R119). -/
  | writeByte (ch : Channel) (b : Byte)
  /-- ACK_WINDOW (R120). -/
  | ackWindow (ch : Channel)
  /-- WRITE_FRAME (R121). -/
  | writeFrame (ch : Channel) (f : DigitFrame)
  /-- ENCODE (R100). -/
  | encode (d : Digit)
  /-- SEGBYTE (R104). -/
  | segbyte (d : Digit) (i : Place) (colon : Bool)
  /-- DEBOUNCE_POLL (R142). -/
  | debouncePoll (raw : Bool) (now : Nat)
  /-- LAP_UPDATE (R161). -/
  | lapUpdate (fall : Bool) (now : Nat)
  /-- LAP_START (R162). -/
  | lapStart (now : Nat)
  /-- LAP_COMPLETE (R163). -/
  | lapComplete (now : Nat)
  /-- LAP_TICK (R165). -/
  | lapTick
  /-- LAP_HOLD (R166). -/
  | lapHold
  /-- FORMAT_MMSS (R180). -/
  | formatMmss (m : TwoDigits) (s : TwoDigits) (colon : Bool)
  /-- RENDER (R181). -/
  | render
  /-- INIT (R183). -/
  | init
  /-- STEP (R188). -/
  | step (raw : Bool) (now : Nat)
  /-- STATUS_READ (R190). -/
  | statusRead
  /-- CMD_DATA, the "auto-increment address" command byte (R82). -/
  | cmdData (ch : Channel)
  /-- CMD_ADDR, the base-address command byte (R83). -/
  | cmdAddr (ch : Channel)
  /-- CMD_CTRL, display-on plus brightness (R84). -/
  | cmdCtrl (ch : Channel) (brightness : BitVec 3)
  /-- DATA, the data byte of the digit at place `i`: `c` is bit 7, `seg` bits 6:0 (R85). -/
  | data (ch : Channel) (i : Place) (c : Bool) (seg : Segments)
  deriving DecidableEq, Repr

end Sys2Proof
end

