-- ==== Sys2Proof/WellFormed.lean ====
section
/-!
DEFINITION. When an operation is well formed: the ranges of digits, places, minutes and brightness are in their types
(40_segment_codec.md R103, 30_encoding.md R89, 44_render_and_step.md R180); what is left to check is the colon bit of a data byte,
the seconds of FORMAT_MMSS, and that a time fits a line.
-/
namespace Sys2Proof

/-- The bits of a time in a line. DESIGN CHOICE, log 16. -/
abbrev lineTimeBits : Nat := 64

/-- A time that a line can carry. -/
def timeFits (t : Nat) : Bool := decide (t < 2 ^ lineTimeBits)

/-- "`c` = 1 exactly when the byte is the second digit's (`i` = 1) and the frame's colon flag is 1; otherwise 0"
(30_encoding.md R85): a data byte with bit 7 set stands at place 1. FORMAT_MMSS takes "`s` in [0, 59]" (44_render_and_step.md R180). -/
def Instr.wellFormed : Instr → Bool
  | .clkw _ _ => true
  | .diow _ _ => true
  | .diod _ _ => true
  | .delay _ n => timeFits n
  | .start _ => true
  | .stop _ => true
  | .writeByte _ _ => true
  | .ackWindow _ => true
  | .writeFrame _ _ => true
  | .encode _ => true
  | .segbyte _ _ _ => true
  | .debouncePoll _ now => timeFits now
  | .lapUpdate _ now => timeFits now
  | .lapStart now => timeFits now
  | .lapComplete now => timeFits now
  | .lapTick => true
  | .lapHold => true
  | .formatMmss _ s _ => decide (s.val ≤ 59)
  | .render => true
  | .init => true
  | .step _ now => timeFits now
  | .statusRead => true
  | .cmdData _ => true
  | .cmdAddr _ => true
  | .cmdCtrl _ _ => true
  | .data _ i c _ => !c || decide (i = 1)

end Sys2Proof
end

