-- ==== Sys2Proof/Decode.lean ====
section
/-!
DEFINITION. Stimulus lines: one operation laid out in eleven bytes, the decoder that reads a line, and after it the encoder.

The hardware decodes nothing (30_encoding.md preamble, R92: "a model needs no decoder for them"); the layout of the operand
bytes is the model's, DESIGN CHOICE, log 3. What is the spec's: the first byte is the row's word of opcode_table.json, an
OPSEL (R92) or a wire byte (R82 to R85), and which kind of wire byte it is follows "from its place in the frame, not from
its bits" (R81), so the second byte is the place: 0 for an operation or a command byte, `i + 1` for the data byte of
digit `i`. Operand bytes follow, each operand in a byte of its own, a timestamp or a delay in eight, least significant
first. Bytes that carry nothing are 0.
-/
namespace Sys2Proof

/-- Why a line is no operation. -/
inductive Reject
  /-- The line has not eleven bytes. -/
  | wrongLength
  /-- An unused operation number, 0x16 to 0x1F (30_encoding.md R92). -/
  | unusedOpsel
  /-- A first byte that is neither an operation number nor a command byte (30_encoding.md R91(d)). -/
  | unusedWord
  /-- A place above 4. -/
  | badPlace
  /-- A channel byte other than 0 (A) and 1 (B) (00_scope.md R7). -/
  | badChannel
  /-- A one-bit operand above 1. -/
  | badBit
  /-- A digit above 9 (40_segment_codec.md R103, 93 U1). -/
  | digitRange
  /-- A digit's place above 3 (40_segment_codec.md R104). -/
  | positionRange
  /-- Minutes above 99 (44_render_and_step.md R180, 93 U3). -/
  | minutesRange
  /-- Seconds above 59 (44_render_and_step.md R180, 93 U3). -/
  | secondsRange
  /-- A byte that carries no operand is not 0. -/
  | unusedOperand
  /-- Bit 7 of a data byte is 1 at a place other than 1 (30_encoding.md R85). -/
  | colonMisplaced
  deriving DecidableEq, Repr

/-- A channel byte. -/
def channelOf (b : Byte) : Except Reject Channel :=
  if b = 0#8 then .ok .A else if b = 1#8 then .ok .B else .error .badChannel

/-- A one-bit operand. -/
def bitOf (b : Byte) : Except Reject Bool :=
  if b = 0#8 then .ok false else if b = 1#8 then .ok true else .error .badBit

/-- A direction byte: 0 is `in`, 1 is `out`. -/
def directionOf (b : Byte) : Except Reject Direction :=
  if b = 0#8 then .ok .input else if b = 1#8 then .ok .output else .error .badBit

/-- A bounded operand, refused by name above its bound. -/
def boundedOf (n : Nat) (r : Reject) (b : Byte) : Except Reject (Fin n) :=
  if h : b.toNat < n then .ok ⟨b.toNat, h⟩ else .error r

/-- A digit byte. -/
def digitOf (b : Byte) : Except Reject Digit := boundedOf 10 .digitRange b

/-- A place byte, 0 to 3. -/
def placeOf (b : Byte) : Except Reject Place := boundedOf 4 .positionRange b

/-- A minutes byte, at most 99 (44_render_and_step.md R180). -/
def minutesOf (b : Byte) : Except Reject TwoDigits := boundedOf 100 .minutesRange b

/-- A seconds byte, at most 59 (44_render_and_step.md R180). -/
def secondsOf (b : Byte) : Except Reject TwoDigits :=
  if h : b.toNat ≤ 59 then .ok ⟨b.toNat, Nat.lt_of_le_of_lt h (by decide)⟩ else .error .secondsRange

/-- The natural number of bytes, least significant first. -/
def timeOf : List Byte → Nat
  | [] => 0
  | b :: rest => b.toNat + 256 * timeOf rest

/-- The bytes that carry no operand are 0. -/
def unused (bs : List Byte) : Except Reject Unit :=
  if bs.all (fun b => b == 0#8) then .ok () else .error .unusedOperand

/-- A line at place 0: an operation number (30_encoding.md R92) or a command byte (R82 to R84). -/
def decodeFirst (w a b c d e f g h i : Byte) : Except Reject Instr :=
  match w.toNat with
  | 0x00 => do let ch ← channelOf a; let v ← bitOf b; unused [c, d, e, f, g, h, i]; pure (.clkw ch v)
  | 0x01 => do let ch ← channelOf a; let v ← bitOf b; unused [c, d, e, f, g, h, i]; pure (.diow ch v)
  | 0x02 => do let ch ← channelOf a; let v ← directionOf b; unused [c, d, e, f, g, h, i]; pure (.diod ch v)
  | 0x03 => do let ch ← channelOf a; pure (.delay ch (timeOf [b, c, d, e, f, g, h, i]))
  | 0x04 => do let ch ← channelOf a; unused [b, c, d, e, f, g, h, i]; pure (.start ch)
  | 0x05 => do let ch ← channelOf a; unused [b, c, d, e, f, g, h, i]; pure (.stop ch)
  | 0x06 => do let ch ← channelOf a; unused [c, d, e, f, g, h, i]; pure (.writeByte ch b)
  | 0x07 => do let ch ← channelOf a; unused [b, c, d, e, f, g, h, i]; pure (.ackWindow ch)
  | 0x08 => do
      let ch ← channelOf a
      let d0 ← digitOf b
      let d1 ← digitOf c
      let d2 ← digitOf d
      let d3 ← digitOf e
      let colon ← bitOf f
      unused [g, h, i]
      pure (.writeFrame ch { d0 := d0, d1 := d1, d2 := d2, d3 := d3, colon := colon })
  | 0x09 => do let dg ← digitOf a; unused [b, c, d, e, f, g, h, i]; pure (.encode dg)
  | 0x0A => do
      let dg ← digitOf a
      let place ← placeOf b
      let colon ← bitOf c
      unused [d, e, f, g, h, i]
      pure (.segbyte dg place colon)
  | 0x0B => do let raw ← bitOf a; pure (.debouncePoll raw (timeOf [b, c, d, e, f, g, h, i]))
  | 0x0C => do let fall ← bitOf a; pure (.lapUpdate fall (timeOf [b, c, d, e, f, g, h, i]))
  | 0x0D => do unused [a]; pure (.lapStart (timeOf [b, c, d, e, f, g, h, i]))
  | 0x0E => do unused [a]; pure (.lapComplete (timeOf [b, c, d, e, f, g, h, i]))
  | 0x0F => do unused [a, b, c, d, e, f, g, h, i]; pure .lapTick
  | 0x10 => do unused [a, b, c, d, e, f, g, h, i]; pure .lapHold
  | 0x11 => do
      let m ← minutesOf a
      let s ← secondsOf b
      let colon ← bitOf c
      unused [d, e, f, g, h, i]
      pure (.formatMmss m s colon)
  | 0x12 => do unused [a, b, c, d, e, f, g, h, i]; pure .render
  | 0x13 => do unused [a, b, c, d, e, f, g, h, i]; pure .init
  | 0x14 => do let raw ← bitOf a; pure (.step raw (timeOf [b, c, d, e, f, g, h, i]))
  | 0x15 => do unused [a, b, c, d, e, f, g, h, i]; pure .statusRead
  | 0x40 => do let ch ← channelOf a; unused [b, c, d, e, f, g, h, i]; pure (.cmdData ch)
  | 0xC0 => do let ch ← channelOf a; unused [b, c, d, e, f, g, h, i]; pure (.cmdAddr ch)
  | n =>
    if n < 0x20 then .error .unusedOpsel
    else if w.extractLsb' 3 5 = 0b10001#5 then do
      let ch ← channelOf a; unused [b, c, d, e, f, g, h, i]; pure (.cmdCtrl ch (w.extractLsb' 0 3))
    else .error .unusedWord

/-- A line at place `p`, 1 to 4: the data byte `csssssss` of digit `p - 1` (30_encoding.md R81, R85). -/
def decodeData (w p a b c d e f g h i : Byte) : Except Reject Instr := do
  let place ← boundedOf 4 .badPlace (p - 1#8)
  let ch ← channelOf a
  unused [b, c, d, e, f, g, h, i]
  if w.getLsbD 7 && !decide (place = 1) then .error .colonMisplaced
  else pure (.data ch place (w.getLsbD 7) (w.extractLsb' 0 7))

/-- The operation a line stands for, or why it stands for none. Total on any bytes. -/
def decode (line : List Byte) : Except Reject Instr :=
  match line with
  | [w, p, a, b, c, d, e, f, g, h, i] =>
    if p = 0#8 then decodeFirst w a b c d e f g h i else decodeData w p a b c d e f g h i
  | _ => .error .wrongLength

/-- The byte of a channel. -/
def channelByte : Channel → Byte
  | .A => 0#8
  | .B => 1#8

/-- The byte of a one-bit operand. -/
def bitByte (v : Bool) : Byte := if v then 1#8 else 0#8

/-- The byte of a direction. -/
def directionByte : Direction → Byte
  | .input => 0#8
  | .output => 1#8

/-- The byte of a bounded operand. -/
def boundedByte {n : Nat} (d : Fin n) : Byte := BitVec.ofNat 8 d.val

/-- The first `n` bytes of a time, least significant first. -/
def timeBytes : Nat → Nat → List Byte
  | 0, _ => []
  | n + 1, t => BitVec.ofNat 8 t :: timeBytes n (t / 256)

/-- The data byte `csssssss` (30_encoding.md R85). -/
def dataWord (c : Bool) (seg : Segments) : Byte := BitVec.ofBool c ++ seg

/-- The command byte `10001bbb` (30_encoding.md R84). -/
def ctrlWord (brightness : BitVec 3) : Byte := 0b10001#5 ++ brightness

/-- The eleven bytes of an operation. -/
def encode : Instr → List Byte
  | .clkw ch v => [0x00, 0, channelByte ch, bitByte v, 0, 0, 0, 0, 0, 0, 0]
  | .diow ch v => [0x01, 0, channelByte ch, bitByte v, 0, 0, 0, 0, 0, 0, 0]
  | .diod ch d => [0x02, 0, channelByte ch, directionByte d, 0, 0, 0, 0, 0, 0, 0]
  | .delay ch n => [0x03, 0, channelByte ch] ++ timeBytes 8 n
  | .start ch => [0x04, 0, channelByte ch, 0, 0, 0, 0, 0, 0, 0, 0]
  | .stop ch => [0x05, 0, channelByte ch, 0, 0, 0, 0, 0, 0, 0, 0]
  | .writeByte ch b => [0x06, 0, channelByte ch, b, 0, 0, 0, 0, 0, 0, 0]
  | .ackWindow ch => [0x07, 0, channelByte ch, 0, 0, 0, 0, 0, 0, 0, 0]
  | .writeFrame ch f =>
      [0x08, 0, channelByte ch, boundedByte f.d0, boundedByte f.d1, boundedByte f.d2, boundedByte f.d3, bitByte f.colon, 0, 0, 0]
  | .encode d => [0x09, 0, boundedByte d, 0, 0, 0, 0, 0, 0, 0, 0]
  | .segbyte d i colon => [0x0A, 0, boundedByte d, boundedByte i, bitByte colon, 0, 0, 0, 0, 0, 0]
  | .debouncePoll raw now => [0x0B, 0, bitByte raw] ++ timeBytes 8 now
  | .lapUpdate fall now => [0x0C, 0, bitByte fall] ++ timeBytes 8 now
  | .lapStart now => [0x0D, 0, 0] ++ timeBytes 8 now
  | .lapComplete now => [0x0E, 0, 0] ++ timeBytes 8 now
  | .lapTick => [0x0F, 0, 0, 0, 0, 0, 0, 0, 0, 0, 0]
  | .lapHold => [0x10, 0, 0, 0, 0, 0, 0, 0, 0, 0, 0]
  | .formatMmss m s colon => [0x11, 0, boundedByte m, boundedByte s, bitByte colon, 0, 0, 0, 0, 0, 0]
  | .render => [0x12, 0, 0, 0, 0, 0, 0, 0, 0, 0, 0]
  | .init => [0x13, 0, 0, 0, 0, 0, 0, 0, 0, 0, 0]
  | .step raw now => [0x14, 0, bitByte raw] ++ timeBytes 8 now
  | .statusRead => [0x15, 0, 0, 0, 0, 0, 0, 0, 0, 0, 0]
  | .cmdData ch => [0x40, 0, channelByte ch, 0, 0, 0, 0, 0, 0, 0, 0]
  | .cmdAddr ch => [0xC0, 0, channelByte ch, 0, 0, 0, 0, 0, 0, 0, 0]
  | .cmdCtrl ch brightness => [ctrlWord brightness, 0, channelByte ch, 0, 0, 0, 0, 0, 0, 0, 0]
  | .data ch i c seg => [dataWord c seg, boundedByte i + 1, channelByte ch, 0, 0, 0, 0, 0, 0, 0, 0]

/-- The line whose bits are `w`: bit 0 is the least significant bit of the first byte, the second byte is bits 15 to 8, and so
on; bits from `nbits` up are 0. -/
def lineOfWord (nbits w : Nat) : List Byte :=
  (List.range 11).map (fun k => BitVec.ofNat 8 (w % 2 ^ nbits / 2 ^ (8 * k)))

/-- The operation the decoder reads from the bits of a row of opcode_table.json, operand bits above `nbits` zero. -/
def decodeTableWord (nbits w : Nat) : Option Instr :=
  match decode (lineOfWord nbits w) with
  | .ok i => some i
  | .error _ => none

end Sys2Proof
end

