-- ==== Sys2Proof/Machine/State.lean ====
section
/-!
DEFINITION. The state record `S` (10_state.md R20), the pin trace (R35), the configuration (00_scope.md R5), the model's own
fields, the reasons to stop, and the state after reset (R42, 70_reset_and_hazards.md R230).
-/
namespace Sys2Proof.Machine

/-- A pin-trace event (00_scope.md R11). -/
inductive PinEvent
  /-- `Clk(ch, v)`. -/
  | clk (ch : Channel) (v : Bool)
  /-- `Dio(ch, v)`. -/
  | dio (ch : Channel) (v : Bool)
  /-- `Dir(ch, d)`. -/
  | dir (ch : Channel) (d : Direction)
  /-- `Delay(ch, n)`: at least `n` microseconds pass. -/
  | delay (ch : Channel) (n : Nat)
  deriving DecidableEq, Repr

/-- The status view (44_render_and_step.md R190). -/
structure StatusView where
  running : Bool
  min : TwoDigits
  sec : TwoDigits
  lastMin : TwoDigits
  lastSec : TwoDigits
  valid : Bool
  count : Nat
  debounced : Bool
  deriving DecidableEq, Repr

/-- What an operation returns, `NAME(operands) -> results` (00_scope.md R12). The model's own record of it; log 6. -/
inductive Result
  /-- No result. -/
  | none
  /-- ENCODE's 7-bit pattern (R100). -/
  | segments (seg : Segments)
  /-- SEGBYTE's byte (R104). -/
  | byte (b : Byte)
  /-- DEBOUNCE_POLL's events (R142). -/
  | edges (fall rise : Bool)
  /-- FORMAT_MMSS's DigitFrame (R180). -/
  | frame (f : DigitFrame)
  /-- STATUS_READ's record (R190). -/
  | status (v : StatusView)
  deriving DecidableEq, Repr

/-- One outside action (30_encoding.md R93); log 1. -/
inductive Stimulus
  /-- `RESET`, hardware reset (R230). -/
  | reset
  /-- A line that invokes an operation. -/
  | line (bytes : List Byte)
  deriving DecidableEq, Repr

/-- What the machine takes from the outside next; log 1, log 2. -/
inductive Request
  /-- Hardware reset. -/
  | hardwareReset
  /-- An operation. -/
  | run (i : Instr)
  /-- A line that is no operation. -/
  | reject (r : Reject)
  deriving DecidableEq, Repr

/-- The state: the record `S`, the pin trace, the configuration, and the model's own fields. -/
structure State where
  /-- `Cfg` (00_scope.md R5), fixed at construction. -/
  cfg : Cfg
  /-- `S.initialized` (R21). -/
  initialized : Bool
  /-- BeamState (R22 to R24). -/
  beam : BeamState
  /-- LapTimerState (R26 to R32). -/
  lap : LapState
  /-- `S.pin[ch]` (R34). -/
  pins : PerChannel PinRegs
  /-- `Tr`, the pin trace (R35), oldest event first. -/
  trace : List PinEvent
  /-- The last operation's results. The model's own; log 6. -/
  result : Result
  /-- Outside actions not yet taken, oldest first. The model's own; log 1. -/
  pending : List Stimulus
  /-- How many steps drew free samples. The model's own; log 2. -/
  polls : Nat
  /-- How many RESET stimuli were taken. The model's own; log 9. -/
  powerUps : Nat
  deriving DecidableEq, Repr

/-- No operation faults: "The block raises no exception and has no cause codes" (60_exceptions.md R200). Nobody raises a
value of this type, since it has none. -/
inductive Fault
  deriving DecidableEq, Repr

/-- Why the model has no meaning for a step. -/
inductive Refusal
  /-- An operation without a meaning yet. Raised by no arm of exec; safe. -/
  | notModelled (mnemonic : String)
  /-- The next stimulus line stands for no operation (30_encoding.md R91, R92; 93 U1). Raised by step when decode rejects the
  line, whose reason it carries; safe: the machine stops where the spec gives no meaning. -/
  | undecodable (r : Reject)
  deriving DecidableEq, Repr

/-- The registers State.reset gives where the spec gives none ("unspecified", R42). DESIGN CHOICE, log 8. -/
def PowerUp.zero : PowerUp where
  beam := { lastRaw := false, debounced := false, changeTs := 0 }
  lap := { running := false, min := 0, sec := 0, tickRef := 0, lastMin := 0, lastSec := 0, valid := false, count := 0 }
  pins :=
    { a := { clk := false, dioOut := false, dioDir := .input }
      b := { clk := false, dioOut := false, dioDir := .input } }

/-- The machine right after reset with configuration `c`: "`S.initialized` = 0 and every other register of `S` is
unspecified; the pin trace is empty" (R42). -/
def State.resetWith (c : Cfg) : State where
  cfg := c
  initialized := false
  beam := PowerUp.zero.beam
  lap := PowerUp.zero.lap
  pins := PowerUp.zero.pins
  trace := []
  result := .none
  pending := []
  polls := 0
  powerUps := 0

/-- The machine right after reset, with the default configuration (log 10). -/
def State.reset : State := State.resetWith Config.default

end Sys2Proof.Machine
end

