-- ==== Sys2Proof/Machine/Ops.lean ====
section
/-!
DEFINITION. The shared operations: modular time, pin writes and their trace, what an operation returns, hardware reset, and
how the machine takes the next outside action.

Taking an exception and returning from one do not exist here: "There is no trap entry: no saved state, no vector, no mode
change, no handler" (60_exceptions.md R207), "There is no trap return" (R208).
-/
namespace Sys2Proof.Machine

/-- A value cut to `W` bits: what a `W`-bit register or operand holds of it (00_scope.md R5, 70_reset_and_hazards.md R240). The
spec's times have `W` bits; that a larger operand is cut to them is DESIGN CHOICE, log 27. -/
def modW (c : Cfg) (t : Nat) : Nat := t % 2 ^ c.tsWidth

/-- `diff_W(a, b) = (a - b) mod 2^W` (00_scope.md R8), of the `W`-bit values of `a` and `b`. -/
def diffW (c : Cfg) (a b : Nat) : Nat := modW c (modW c a + (2 ^ c.tsWidth - modW c b))

/-- `add_W(a, b) = (a + b) mod 2^W` (00_scope.md R8), `b` a number of microseconds. -/
def addW (c : Cfg) (a : Nat) (b : Nat) : Nat := modW c (a + b)

/-- Registers of any value, cut to the widths the configuration gives them (00_scope.md R5, 10_state.md section 1.1). -/
def PowerUp.fit (c : Cfg) (p : PowerUp) : PowerUp :=
  { p with
    beam := { p.beam with changeTs := modW c p.beam.changeTs }
    lap := { p.lap with tickRef := modW c p.lap.tickRef, count := p.lap.count % 2 ^ c.lapCountWidth } }

/-- What one pin event does to the pin registers (41_serial_display_driver.md R110 to R113). -/
def applyEvent (e : PinEvent) (p : PerChannel PinRegs) : PerChannel PinRegs :=
  match e with
  | .clk ch v => p.set ch { p.get ch with clk := v }
  | .dio ch v => p.set ch { p.get ch with dioOut := v }
  | .dir ch d => p.set ch { p.get ch with dioDir := d }
  | .delay _ _ => p

/-- Pin events in the order written (00_scope.md R12). -/
def applyEvents (es : List PinEvent) (p : PerChannel PinRegs) : PerChannel PinRegs :=
  match es with
  | [] => p
  | e :: rest => applyEvents rest (applyEvent e p)

/-- Do pin events: write the pin registers and append the events to the trace, those that change no pin's value too
(00_scope.md R10, R11). -/
def drive (es : List PinEvent) (s : State) : State :=
  { s with pins := applyEvents es s.pins, trace := s.trace ++ es }

/-- An operation ends with its results; it never faults (60_exceptions.md R200). -/
def finish (r : Result) (s : State) : Host.Outcome State Fault Refusal :=
  .next { s with result := r }

/-- Hardware reset in a run (70_reset_and_hazards.md R230): `S.initialized` = 0, the pin trace empty, "every other register of
`S` unspecified": free values, log 9. `Cfg` is constant (00_scope.md R5). -/
def hardwareReset (s : State) : State :=
  { s with
    initialized := false
    beam := ((Config.powerUp s.powerUps).fit s.cfg).beam
    lap := ((Config.powerUp s.powerUps).fit s.cfg).lap
    pins := ((Config.powerUp s.powerUps).fit s.cfg).pins
    trace := []
    result := .none
    powerUps := s.powerUps + 1 }

/-- The operation a line stands for. -/
def requestOf (line : List Byte) : Request :=
  match decode line with
  | .ok i => .run i
  | .error r => .reject r

/-- Take the next outside action. With nothing placed the scheduler invokes STEP, the samples being free (00_scope.md R13,
20_memory.md R52, R53); log 1, log 2. -/
def takeNext (s : State) : Request × State :=
  match s.pending with
  | [] => (.run (.step (Config.sampledRaw s.polls) (Config.sampledNow s.polls)), { s with polls := s.polls + 1 })
  | .reset :: rest => (.hardwareReset, { s with pending := rest })
  | .line bytes :: rest => (requestOf bytes, { s with pending := rest })

/-- Place a stimulus line before all others. -/
def placeLine (bytes : List Byte) (s : State) : State :=
  { s with pending := .line bytes :: s.pending }

end Sys2Proof.Machine
end

