-- ==== Sys2Proof/Machine/Operands.lean ====
section
/-!
DEFINITION. Operand assembly: digits of a two-digit field (30_encoding.md R90), the wire bytes (R82 to R85, R89), the bits of
a byte in the order they go out (20_memory.md R55).
-/
namespace Sys2Proof.Machine

/-- `v div 10`, the tens digit of a value of at most 99 (30_encoding.md R90). -/
def tensDigit (v : TwoDigits) : Digit := ⟨v.val / 10, by omega⟩

/-- `v mod 10`, the units digit (30_encoding.md R90). -/
def unitsDigit (v : TwoDigits) : Digit := ⟨v.val % 10, by omega⟩

/-- `Cfg.SEG[d]` (40_segment_codec.md R100). -/
def segmentsOf (c : Cfg) (d : Digit) : Segments := c.seg.get d

/-- `DECODE_SEG` (40_segment_codec.md R101): the digit whose pattern this is, if any. "the block never computes" it. -/
def digitOfSegments (c : Cfg) (seg : Segments) : Option Digit :=
  (List.finRange 10).find? (fun d => segmentsOf c d == seg)

/-- A pattern in bits 6:0, the colon ORed in at place 1 when requested (30_encoding.md R85, 40_segment_codec.md R104). -/
def colonByte (c : Cfg) (i : Place) (colon : Bool) (seg : Segments) : Byte :=
  if i = 1 ∧ colon = true then seg.setWidth 8 ||| c.colonMask else seg.setWidth 8

/-- `DATA_BYTE(i)` of digit `d` (30_encoding.md R85). -/
def dataByte (c : Cfg) (d : Digit) (i : Place) (colon : Bool) : Byte :=
  colonByte c i colon (segmentsOf c d)

/-- `Cfg.CMD_DISPLAY_ON | zext_8(brightness)` (30_encoding.md R84, R89). -/
def controlByte (c : Cfg) (brightness : BitVec 3) : Byte :=
  c.cmdDisplayOn ||| brightness.setWidth 8

/-- The four data bytes of a frame, `d0` first (20_memory.md R56). -/
def dataBytes (c : Cfg) (f : DigitFrame) : List Byte :=
  [dataByte c f.d0 0 f.colon, dataByte c f.d1 1 f.colon, dataByte c f.d2 2 f.colon, dataByte c f.d3 3 f.colon]

/-- The bits of a byte in the order they go out, bit 0 first (20_memory.md R55). -/
def bitsOfByte (b : Byte) : List Bool :=
  [b.getLsbD 0, b.getLsbD 1, b.getLsbD 2, b.getLsbD 3, b.getLsbD 4, b.getLsbD 5, b.getLsbD 6, b.getLsbD 7]

end Sys2Proof.Machine
end

