-- ==== Sys2Proof/Machine/Codec.lean ====
section
/-!
DEFINITION. The segment codec: ENCODE and SEGBYTE (40_segment_codec.md), "pure function, no state".
-/
namespace Sys2Proof.Machine

/-- ENCODE (R100). -/
def execEncode (d : Digit) (s : State) : Host.Outcome State Fault Refusal :=
  finish (.segments (segmentsOf s.cfg d)) s

/-- SEGBYTE (R104). -/
def execSegbyte (d : Digit) (i : Place) (colon : Bool) (s : State) : Host.Outcome State Fault Refusal :=
  finish (.byte (dataByte s.cfg d i colon)) s

end Sys2Proof.Machine
end

