-- ==== Sys2Proof/Machine/Flags.lean ====
section
/-!
DEFINITION. The one-bit conditions: the event bits `fall` and `rise` (10_state.md R38, 42_debounce.md R147), the window test
(R146) and the tick test (43_lap_timer.md R170). The block has no condition codes.
-/
namespace Sys2Proof.Machine

/-- The event bits of one poll. -/
structure Edges where
  fall : Bool
  rise : Bool
  deriving DecidableEq, Repr

/-- No event. -/
def noEdges : Edges := { fall := false, rise := false }

/-- The event of a commit to `level`: `fall` when the debounced level becomes 0, `rise` when it becomes 1 (42_debounce.md
R142, R147). -/
def commitEdges (level : Bool) : Edges := { fall := !level, rise := level }

/-- `diff_W(now, S.beam_change_ts) >= Cfg.DEBOUNCE_WINDOW_US`, unsigned (42_debounce.md R146). -/
def windowElapsed (c : Cfg) (now changeTs : Nat) : Bool :=
  decide (c.debounceWindowUs ≤ diffW c now changeTs)

/-- `diff_W(now, S.lap_tick_ref) >= Cfg.TICK_PERIOD_US`, unsigned (43_lap_timer.md R170). -/
def tickDue (c : Cfg) (now tickRef : Nat) : Bool :=
  decide (c.tickPeriodUs ≤ diffW c now tickRef)

end Sys2Proof.Machine
end

