-- ==== Sys2Proof/Machine/Debounce.lean ====
section
/-!
DEFINITION. The debounced edge detector, DEBOUNCE_POLL (42_debounce.md R140 to R152), as 90_conflicts.md C1 reads it.
-/
namespace Sys2Proof.Machine

/-- Part 1, record (42_debounce.md R143). -/
def recordChange (c : Cfg) (raw : Bool) (now : Nat) (b : BeamState) : BeamState :=
  if raw ≠ b.lastRaw then { b with lastRaw := raw, changeTs := modW c now } else b

/-- Part 2, commit (42_debounce.md R145, R146). -/
def commitChange (c : Cfg) (now : Nat) (b : BeamState) : BeamState × Edges :=
  if b.lastRaw ≠ b.debounced ∧ windowElapsed c now b.changeTs = true then
    ({ b with debounced := b.lastRaw }, commitEdges b.lastRaw)
  else (b, noEdges)

/-- DEBOUNCE_POLL (42_debounce.md R142): "Part 2 reads the registers as part 1 left them". -/
def debouncePoll (c : Cfg) (raw : Bool) (now : Nat) (b : BeamState) : BeamState × Edges :=
  commitChange c now (recordChange c raw now b)

/-- DEBOUNCE_POLL as an operation. -/
def execDebouncePoll (raw : Bool) (now : Nat) (s : State) : Host.Outcome State Fault Refusal :=
  let r := debouncePoll s.cfg raw now s.beam
  finish (.edges r.2.fall r.2.rise) { s with beam := r.1 }

end Sys2Proof.Machine
end

