-- ==== Sys2Proof/Machine/Driver.lean ====
section
/-!
DEFINITION. The serial display driver (41_serial_display_driver.md): pin primitives, START, STOP, the bit cell, the
acknowledge window, WRITE_BYTE, WRITE_FRAME, and the wire bytes of 30_encoding.md sent by WRITE_BYTE.

Each driver operation is the list of its pin events, "a function of its operands, `Cfg` and nothing else" (R123).
-/
namespace Sys2Proof.Machine

/-- START (R115). -/
def startEvents (c : Cfg) (ch : Channel) : List PinEvent :=
  [.clk ch true, .dio ch true, .delay ch (c.tHold.get ch), .dio ch false, .delay ch (c.tHold.get ch)]

/-- STOP (R117). -/
def stopEvents (c : Cfg) (ch : Channel) : List PinEvent :=
  [.clk ch false, .delay ch (c.tHold.get ch), .dio ch false, .delay ch (c.tHold.get ch),
    .clk ch true, .delay ch (c.tHold.get ch), .dio ch true, .delay ch (c.tHold.get ch)]

/-- BITCELL (R118). -/
def bitCellEvents (c : Cfg) (ch : Channel) (v : Bool) : List PinEvent :=
  [.clk ch false, .dio ch v, .delay ch (c.tHold.get ch), .clk ch true, .delay ch (c.tHold.get ch)]

/-- The acknowledge clock, when configured (R120). -/
def ninthClockEvents (c : Cfg) (ch : Channel) : List PinEvent :=
  if c.ackNinthClock then [.clk ch true, .delay ch (c.tHold.get ch), .clk ch false] else []

/-- ACK_WINDOW (R120). -/
def ackWindowEvents (c : Cfg) (ch : Channel) : List PinEvent :=
  [.clk ch false, .dir ch .input, .delay ch c.ackWindowUs] ++ ninthClockEvents c ch ++ [.dir ch .output]

/-- WRITE_BYTE (R119): eight bit cells, bit 0 first, then the acknowledge window. -/
def writeByteEvents (c : Cfg) (ch : Channel) (b : Byte) : List PinEvent :=
  (bitsOfByte b).flatMap (bitCellEvents c ch) ++ ackWindowEvents c ch

/-- A session: START, the bytes, STOP (30_encoding.md R94). -/
def sessionEvents (c : Cfg) (ch : Channel) (bs : List Byte) : List PinEvent :=
  startEvents c ch ++ bs.flatMap (writeByteEvents c ch) ++ stopEvents c ch

/-- The bytes of the sessions of a frame, in order (30_encoding.md R86): the command, the address and the four data bytes, and
the brightness command when configured. -/
def frameSessions (c : Cfg) (ch : Channel) (f : DigitFrame) : List (List Byte) :=
  [[c.cmdDataAutoinc], c.cmdAddrBase :: dataBytes c f] ++
    (match c.brightness.get ch with
      | none => []
      | some n => [[controlByte c (BitVec.ofNat 3 n)]])

/-- WRITE_FRAME (R121). -/
def writeFrameEvents (c : Cfg) (ch : Channel) (f : DigitFrame) : List PinEvent :=
  (frameSessions c ch f).flatMap (sessionEvents c ch)

/-- CLKW (R110). -/
def execClkw (ch : Channel) (v : Bool) (s : State) : Host.Outcome State Fault Refusal :=
  finish .none (drive [.clk ch v] s)

/-- DIOW (R111). -/
def execDiow (ch : Channel) (v : Bool) (s : State) : Host.Outcome State Fault Refusal :=
  finish .none (drive [.dio ch v] s)

/-- DIOD (R112): the latch is not changed. -/
def execDiod (ch : Channel) (d : Direction) (s : State) : Host.Outcome State Fault Refusal :=
  finish .none (drive [.dir ch d] s)

/-- DELAY (R113): it writes no state register. -/
def execDelay (ch : Channel) (n : Nat) (s : State) : Host.Outcome State Fault Refusal :=
  finish .none (drive [.delay ch n] s)

/-- START as an operation. -/
def execStart (ch : Channel) (s : State) : Host.Outcome State Fault Refusal :=
  finish .none (drive (startEvents s.cfg ch) s)

/-- STOP as an operation. -/
def execStop (ch : Channel) (s : State) : Host.Outcome State Fault Refusal :=
  finish .none (drive (stopEvents s.cfg ch) s)

/-- WRITE_BYTE as an operation. -/
def execWriteByte (ch : Channel) (b : Byte) (s : State) : Host.Outcome State Fault Refusal :=
  finish .none (drive (writeByteEvents s.cfg ch b) s)

/-- ACK_WINDOW as an operation. -/
def execAckWindow (ch : Channel) (s : State) : Host.Outcome State Fault Refusal :=
  finish .none (drive (ackWindowEvents s.cfg ch) s)

/-- WRITE_FRAME as an operation. -/
def execWriteFrame (ch : Channel) (f : DigitFrame) (s : State) : Host.Outcome State Fault Refusal :=
  finish .none (drive (writeFrameEvents s.cfg ch f) s)

/-- CMD_DATA (30_encoding.md R82): its byte, put on the channel by WRITE_BYTE (R80). DEDUCED, log 5. -/
def execCmdData (ch : Channel) (s : State) : Host.Outcome State Fault Refusal :=
  finish .none (drive (writeByteEvents s.cfg ch s.cfg.cmdDataAutoinc) s)

/-- CMD_ADDR (30_encoding.md R83), as CMD_DATA. DEDUCED, log 5. -/
def execCmdAddr (ch : Channel) (s : State) : Host.Outcome State Fault Refusal :=
  finish .none (drive (writeByteEvents s.cfg ch s.cfg.cmdAddrBase) s)

/-- CMD_CTRL (30_encoding.md R84), as CMD_DATA. DEDUCED, log 5. -/
def execCmdCtrl (ch : Channel) (brightness : BitVec 3) (s : State) : Host.Outcome State Fault Refusal :=
  finish .none (drive (writeByteEvents s.cfg ch (controlByte s.cfg brightness)) s)

/-- DATA (30_encoding.md R85), as CMD_DATA. DEDUCED, log 5. -/
def execData (ch : Channel) (i : Place) (c : Bool) (seg : Segments) (s : State) : Host.Outcome State Fault Refusal :=
  finish .none (drive (writeByteEvents s.cfg ch (colonByte s.cfg i c seg)) s)

end Sys2Proof.Machine
end

