-- ==== Sys2Proof/Machine/LapTimer.lean ====
section
/-!
DEFINITION. The lap timer: LAP_UPDATE and its four arms (43_lap_timer.md R160 to R172), as 90_conflicts.md C2 reads the
reference.
-/
namespace Sys2Proof.Machine

/-- LAP_START (43_lap_timer.md R162). -/
def lapStart (c : Cfg) (now : Nat) (l : LapState) : LapState :=
  { l with running := true, min := 0, sec := 0, tickRef := modW c now }

/-- What LAP_COMPLETE writes under either policy: the copy, the valid bit, the count (43_lap_timer.md R163). -/
def recordLap (c : Cfg) (l : LapState) : LapState :=
  { l with lastMin := l.min, lastSec := l.sec, valid := true, count := (l.count + 1) % 2 ^ c.lapCountWidth }

/-- LAP_COMPLETE (43_lap_timer.md R163, R164). -/
def lapComplete (c : Cfg) (now : Nat) (l : LapState) : LapState :=
  match c.lapPolicy with
  | .restartOnLap => { recordLap c l with min := 0, sec := 0, tickRef := modW c now }
  | .pauseOnLap => { recordLap c l with running := false }

/-- The seconds counter and its cascade into minutes (43_lap_timer.md R165, R167). -/
def advanceSecond (c : Cfg) (l : LapState) : LapState :=
  if l.sec.val = c.secMax then
    if l.min.val = c.minMax then { l with sec := 0, min := 0 } else { l with sec := 0, min := l.min + 1 }
  else { l with sec := l.sec + 1 }

/-- LAP_TICK (43_lap_timer.md R165): the reference moves by exactly one period. -/
def lapTick (c : Cfg) (l : LapState) : LapState :=
  { advanceSecond c l with tickRef := addW c l.tickRef c.tickPeriodUs }

/-- LAP_HOLD (43_lap_timer.md R166): "It writes nothing". -/
def lapHold (l : LapState) : LapState := l

/-- LAP_UPDATE (43_lap_timer.md R161): exactly one of four arms, the event arms first. -/
def lapUpdate (c : Cfg) (fall : Bool) (now : Nat) (l : LapState) : LapState :=
  if fall = true ∧ l.running = false then lapStart c now l
  else if fall = true then lapComplete c now l
  else if l.running = true ∧ tickDue c now l.tickRef = true then lapTick c l
  else lapHold l

/-- LAP_UPDATE as an operation. -/
def execLapUpdate (fall : Bool) (now : Nat) (s : State) : Host.Outcome State Fault Refusal :=
  finish .none { s with lap := lapUpdate s.cfg fall now s.lap }

/-- LAP_START as an operation. -/
def execLapStart (now : Nat) (s : State) : Host.Outcome State Fault Refusal :=
  finish .none { s with lap := lapStart s.cfg now s.lap }

/-- LAP_COMPLETE as an operation. -/
def execLapComplete (now : Nat) (s : State) : Host.Outcome State Fault Refusal :=
  finish .none { s with lap := lapComplete s.cfg now s.lap }

/-- LAP_TICK as an operation. -/
def execLapTick (s : State) : Host.Outcome State Fault Refusal :=
  finish .none { s with lap := lapTick s.cfg s.lap }

/-- LAP_HOLD as an operation. -/
def execLapHold (s : State) : Host.Outcome State Fault Refusal :=
  finish .none { s with lap := lapHold s.lap }

end Sys2Proof.Machine
end

