-- ==== Sys2Proof/Machine/Render.lean ====
section
/-!
DEFINITION. FORMAT_MMSS, RENDER, INIT, STEP and STATUS_READ (44_render_and_step.md).
-/
namespace Sys2Proof.Machine

/-- FORMAT_MMSS (R180): minutes tens and units, seconds tens and units. -/
def formatMmss (m s : TwoDigits) (colon : Bool) : DigitFrame where
  d0 := tensDigit m
  d1 := unitsDigit m
  d2 := tensDigit s
  d3 := unitsDigit s
  colon := colon

/-- The frame of channel A: the running clock (R181). -/
def clockFrame (c : Cfg) (l : LapState) : DigitFrame := formatMmss l.min l.sec c.colonOn

/-- The frame of channel B: the last lap (R181). -/
def lastLapFrame (c : Cfg) (l : LapState) : DigitFrame := formatMmss l.lastMin l.lastSec c.colonOn

/-- RENDER's events (R181): channel A's frame, then channel B's. -/
def renderEvents (c : Cfg) (l : LapState) : List PinEvent :=
  writeFrameEvents c .A (clockFrame c l) ++ writeFrameEvents c .B (lastLapFrame c l)

/-- RENDER (R181). -/
def renderState (s : State) : State := drive (renderEvents s.cfg s.lap) s

/-- The filter registers INIT writes (R183); the timestamp is not written. -/
def initBeam (c : Cfg) (b : BeamState) : BeamState :=
  { b with lastRaw := c.beamIdleLevel, debounced := c.beamIdleLevel }

/-- The timer registers INIT writes (R183); the reference is not written. -/
def initLap (l : LapState) : LapState :=
  { l with running := false, min := 0, sec := 0, lastMin := 0, lastSec := 0, valid := false, count := 0 }

/-- INIT's six pin events (R183). -/
def initEvents : List PinEvent :=
  [.dir .A .output, .clk .A true, .dio .A true, .dir .B .output, .clk .B true, .dio .B true]

/-- INIT (R183). -/
def initState (s : State) : State :=
  { drive initEvents s with initialized := true, beam := initBeam s.cfg s.beam, lap := initLap s.lap }

/-- Lazy initialisation (R184, R185). -/
def lazyInit (s : State) : State := if s.initialized then s else initState s

/-- The filter and the timer of one step (R186, R188): the timer reads this step's `fall`. -/
def pollAndUpdate (raw : Bool) (now : Nat) (s : State) : State :=
  { s with
    beam := (debouncePoll s.cfg raw now s.beam).1
    lap := lapUpdate s.cfg (debouncePoll s.cfg raw now s.beam).2.fall now s.lap }

/-- STEP (R188). -/
def stepState (raw : Bool) (now : Nat) (s : State) : State :=
  renderState (pollAndUpdate raw now (lazyInit s))

/-- The status view (R190). -/
def statusView (s : State) : StatusView where
  running := s.lap.running
  min := s.lap.min
  sec := s.lap.sec
  lastMin := s.lap.lastMin
  lastSec := s.lap.lastSec
  valid := s.lap.valid
  count := s.lap.count
  debounced := s.beam.debounced

/-- FORMAT_MMSS as an operation. -/
def execFormatMmss (m sec : TwoDigits) (colon : Bool) (s : State) : Host.Outcome State Fault Refusal :=
  finish (.frame (formatMmss m sec colon)) s

/-- RENDER as an operation. -/
def execRender (s : State) : Host.Outcome State Fault Refusal := finish .none (renderState s)

/-- INIT as an operation. -/
def execInit (s : State) : Host.Outcome State Fault Refusal := finish .none (initState s)

/-- STEP as an operation. -/
def execStep (raw : Bool) (now : Nat) (s : State) : Host.Outcome State Fault Refusal :=
  finish .none (stepState raw now s)

/-- STATUS_READ (R190): it writes nothing and appends nothing to the pin trace. -/
def execStatusRead (s : State) : Host.Outcome State Fault Refusal := finish (.status (statusView s)) s

end Sys2Proof.Machine
end

