-- ==== Sys2Proof/Machine/Dispatch.lean ====
section
/-! DEFINITION. One arm for each operation. -/
namespace Sys2Proof.Machine

def exec (i : Instr) (s : State) : Host.Outcome State Fault Refusal :=
  match i with
  | .clkw ch v => Sys2Proof.Machine.execClkw ch v s
  | .diow ch v => Sys2Proof.Machine.execDiow ch v s
  | .diod ch d => Sys2Proof.Machine.execDiod ch d s
  | .delay ch n => Sys2Proof.Machine.execDelay ch n s
  | .start ch => Sys2Proof.Machine.execStart ch s
  | .stop ch => Sys2Proof.Machine.execStop ch s
  | .writeByte ch b => Sys2Proof.Machine.execWriteByte ch b s
  | .ackWindow ch => Sys2Proof.Machine.execAckWindow ch s
  | .writeFrame ch f => Sys2Proof.Machine.execWriteFrame ch f s
  | .encode d => Sys2Proof.Machine.execEncode d s
  | .segbyte d p colon => Sys2Proof.Machine.execSegbyte d p colon s
  | .debouncePoll raw now => Sys2Proof.Machine.execDebouncePoll raw now s
  | .lapUpdate fall now => Sys2Proof.Machine.execLapUpdate fall now s
  | .lapStart now => Sys2Proof.Machine.execLapStart now s
  | .lapComplete now => Sys2Proof.Machine.execLapComplete now s
  | .lapTick => Sys2Proof.Machine.execLapTick s
  | .lapHold => Sys2Proof.Machine.execLapHold s
  | .formatMmss m sec colon => Sys2Proof.Machine.execFormatMmss m sec colon s
  | .render => Sys2Proof.Machine.execRender s
  | .init => Sys2Proof.Machine.execInit s
  | .step raw now => Sys2Proof.Machine.execStep raw now s
  | .statusRead => Sys2Proof.Machine.execStatusRead s
  | .cmdData ch => Sys2Proof.Machine.execCmdData ch s
  | .cmdAddr ch => Sys2Proof.Machine.execCmdAddr ch s
  | .cmdCtrl ch brightness => Sys2Proof.Machine.execCmdCtrl ch brightness s
  | .data ch p c seg => Sys2Proof.Machine.execData ch p c seg s

end Sys2Proof.Machine
end

