-- ==== Sys2Proof/Machine/Step.lean ====
section
/-!
DEFINITION. One machine step: one outside action (30_encoding.md R93). The block has no program counter and fetches nothing
(10_state.md R40); log 1.
-/
namespace Sys2Proof.Machine

/-- Take the next outside action and do it. -/
def step (s : State) : Host.Outcome State Fault Refusal :=
  match takeNext s with
  | (.hardwareReset, t) => .next (hardwareReset t)
  | (.run i, t) => exec i t
  | (.reject r, _) => .refused (.undecodable r)

/-- The same state with the operation of a row of opcode_table.json, its operand bits above `nbits` zero, as the next outside
action. -/
def State.withFetchWord (s : State) (nbits w : Nat) : State := placeLine (lineOfWord nbits w) s

end Sys2Proof.Machine
end

