-- ==== Sys2Proof/Machine/Receiver.lean ====
section
/-!
DEFINITION. The receiver's reading of the pin trace (20_memory.md R54, R57, R58, R60 to R64): markers, data bits, bytes,
sessions, and the display's digit positions. "they add no behaviour to the block".
-/
namespace Sys2Proof.Machine

/-- The channel of an event. -/
def channelOfEvent : PinEvent → Channel
  | .clk ch _ => ch
  | .dio ch _ => ch
  | .dir ch _ => ch
  | .delay ch _ => ch

/-- Start marker (R60): the data wire, driven, changes from 1 to 0 while the clock wire is 1. -/
def startMarker (p : PinRegs) (e : PinEvent) : Bool :=
  match e with
  | .dio _ v => decide (p.dioDir = .output) && p.clk && p.dioOut && !v
  | _ => false

/-- Stop marker (R61): the data wire, driven, changes from 0 to 1 while the clock wire is 1. -/
def stopMarker (p : PinRegs) (e : PinEvent) : Bool :=
  match e with
  | .dio _ v => decide (p.dioDir = .output) && p.clk && !p.dioOut && v
  | _ => false

/-- A rising clock edge (R62, R63). -/
def clockRises (p : PinRegs) (e : PinEvent) : Bool :=
  match e with
  | .clk _ v => !p.clk && v
  | _ => false

/-- A falling clock edge. -/
def clockFalls (p : PinRegs) (e : PinEvent) : Bool :=
  match e with
  | .clk _ v => p.clk && !v
  | _ => false

/-- What one event does to the pin registers of its channel. -/
def pinAfter (p : PinRegs) (e : PinEvent) : PinRegs :=
  match e with
  | .clk _ v => { p with clk := v }
  | .dio _ v => { p with dioOut := v }
  | .dir _ d => { p with dioDir := d }
  | .delay _ _ => p

/-- What a receiver on one channel knows. -/
structure Receiver where
  /-- The levels and the direction of the wires. -/
  pin : PinRegs
  /-- A session is open: after a start marker and before the next stop marker. -/
  isOpen : Bool
  /-- The data bits of the open session, oldest first. -/
  bits : List Bool
  /-- The data level at the last rising clock edge, not yet known to be a data bit. -/
  edge : Option Bool
  /-- How many start and stop markers were seen. -/
  starts : Nat
  stops : Nat
  /-- The data bits of the closed sessions, oldest first. -/
  closed : List (List Bool)
  deriving DecidableEq, Repr

/-- A receiver outside any session, the wires at `p`. -/
def Receiver.idleAt (p : PinRegs) : Receiver where
  pin := p
  isOpen := false
  bits := []
  edge := none
  starts := 0
  stops := 0
  closed := []

/-- One event of the channel. A rising edge while the data wire is driven carries a bit once the clock has returned to 0
before any marker (R62); while it is released it carries none (R63). A start marker inside an open session opens no second
one; log 18. -/
def receive (r : Receiver) (e : PinEvent) : Receiver :=
  let pin := pinAfter r.pin e
  if startMarker r.pin e then
    if r.isOpen then { r with pin := pin, edge := none, starts := r.starts + 1 }
    else { r with pin := pin, isOpen := true, bits := [], edge := none, starts := r.starts + 1 }
  else if stopMarker r.pin e then
    if r.isOpen then
      { r with pin := pin, isOpen := false, bits := [], edge := none, stops := r.stops + 1, closed := r.closed ++ [r.bits] }
    else { r with pin := pin, edge := none, stops := r.stops + 1 }
  else if clockRises r.pin e then
    { r with pin := pin, edge := if r.isOpen && decide (r.pin.dioDir = .output) then some r.pin.dioOut else none }
  else if clockFalls r.pin e then { r with pin := pin, bits := r.bits ++ r.edge.toList, edge := none }
  else { r with pin := pin }

/-- The events of channel `ch` in a trace, read in order. -/
def receiveAll (ch : Channel) (es : List PinEvent) (r : Receiver) : Receiver :=
  match es with
  | [] => r
  | e :: rest => receiveAll ch rest (if channelOfEvent e = ch then receive r e else r)

/-- Eight bits, the first being bit 0 (R55, R64). -/
def byteOfBits (b0 b1 b2 b3 b4 b5 b6 b7 : Bool) : Byte :=
  BitVec.ofBool b7 ++ BitVec.ofBool b6 ++ BitVec.ofBool b5 ++ BitVec.ofBool b4 ++ BitVec.ofBool b3 ++ BitVec.ofBool b2
    ++ BitVec.ofBool b1 ++ BitVec.ofBool b0

/-- The bytes of a session: "its data bits taken eight at a time" (R64). Fewer than eight at the end are no byte; log 18. -/
def bytesOfBits : List Bool → List Byte
  | b0 :: b1 :: b2 :: b3 :: b4 :: b5 :: b6 :: b7 :: rest => byteOfBits b0 b1 b2 b3 b4 b5 b6 b7 :: bytesOfBits rest
  | _ => []

/-- `Sessions(Tr, ch)` (R64) of a trace that begins with the wires of the channel at `p`, no session open. -/
def sessionsFrom (p : PinRegs) (ch : Channel) (es : List PinEvent) : List (List Byte) :=
  (receiveAll ch es (Receiver.idleAt p)).closed.map bytesOfBits

/-- The writes to the display's digit positions that a peripheral makes of the sessions of a channel, when it acts on the
commands as their names say (R57, R58): after the base-address command the bytes go to positions 0, 1, 2, 3. The spec says this
of a whole frame only. That a session of more bytes runs on to positions 4, 5, and so on, that none but the base-address
command is looked at, and that no auto-increment session has to come before it, is the model's: DESIGN CHOICE, log 25. -/
def displayWrites (c : Cfg) (sessions : List (List Byte)) : List (Nat × Byte) :=
  sessions.flatMap (fun bs =>
    match bs with
    | [] => []
    | cmd :: rest => if cmd = c.cmdAddrBase then rest.zipIdx.map (fun x => (x.2, x.1)) else [])

/-- The level on the clock wire of a channel (R54). -/
def clockWire (s : State) (ch : Channel) : Bool := (s.pins.get ch).clk

/-- The level on the data wire of a channel (R54): the latch while it is driven, else the free external level, log 19. -/
def dataWire (s : State) (ch : Channel) : Bool :=
  match (s.pins.get ch).dioDir with
  | .output => (s.pins.get ch).dioOut
  | .input => Config.extDio ch s.trace.length

/-- The sum of the delays of a list of events, microseconds (41_serial_display_driver.md R125). -/
def delaySum : List PinEvent → Nat
  | [] => 0
  | .delay _ n :: rest => n + delaySum rest
  | .clk _ _ :: rest => delaySum rest
  | .dio _ _ :: rest => delaySum rest
  | .dir _ _ :: rest => delaySum rest

end Sys2Proof.Machine
end

