-- ==== Sys2Proof/Safety.lean ====
section
/-!
DEFINITION. The terms the claims use: the idle bus, the invariants of 10_state.md R43, runs of polls, of timer updates and of
whole steps, true time, and the second reading of the debounce filter of 42_debounce.md R150.
-/
namespace Sys2Proof.Machine

/-- The bus of one channel is idle: clock 1, latch 1, driven (41_serial_display_driver.md R122). -/
def idlePin : PinRegs := { clk := true, dioOut := true, dioDir := .output }

/-- Both buses are idle (10_state.md R43(c)). -/
def State.BusIdle (s : State) : Prop := s.pins = { a := idlePin, b := idlePin }

/-- The elapsed time is in range (10_state.md R27, R28, R43(a)). -/
def LapState.ElapsedInRange (c : Cfg) (l : LapState) : Prop := l.sec.val ≤ c.secMax ∧ l.min.val ≤ c.minMax

/-- 10_state.md R43(a), for a state after INIT: the elapsed time and the last lap are in range. -/
def State.RangeInv (s : State) : Prop :=
  s.initialized = true →
    s.lap.ElapsedInRange s.cfg ∧ s.lap.lastSec.val ≤ s.cfg.secMax ∧ s.lap.lastMin.val ≤ s.cfg.minMax

/-- Each register fits the width that the configuration gives it (00_scope.md R5, 10_state.md section 1.1). -/
def State.WidthInv (s : State) : Prop :=
  s.beam.changeTs < 2 ^ s.cfg.tsWidth ∧ s.lap.tickRef < 2 ^ s.cfg.tsWidth ∧ s.lap.count < 2 ^ s.cfg.lapCountWidth

/-- 10_state.md R43(b), for a state after INIT: no completed lap means count 0 and last lap 00:00. -/
def State.LapRecordInv (s : State) : Prop :=
  s.initialized = true → s.lap.valid = false → s.lap.count = 0 ∧ s.lap.lastMin = 0 ∧ s.lap.lastSec = 0

/-- "only STEP and STATUS_READ can be invoked from outside the block" (30_encoding.md R92). -/
def outsideOperation : Instr → Bool
  | .clkw _ _ => false
  | .diow _ _ => false
  | .diod _ _ => false
  | .delay _ _ => false
  | .start _ => false
  | .stop _ => false
  | .writeByte _ _ => false
  | .ackWindow _ => false
  | .writeFrame _ _ => false
  | .encode _ => false
  | .segbyte _ _ _ => false
  | .debouncePoll _ _ => false
  | .lapUpdate _ _ => false
  | .lapStart _ => false
  | .lapComplete _ => false
  | .lapTick => false
  | .lapHold => false
  | .formatMmss _ _ _ => false
  | .render => false
  | .init => false
  | .step _ _ => true
  | .statusRead => true
  | .cmdData _ => false
  | .cmdAddr _ => false
  | .cmdCtrl _ _ => false
  | .data _ _ _ _ => false

/-- A request that the outside can make; a line that is no operation is refused and invokes nothing. -/
def outsideRequest : Request → Bool
  | .hardwareReset => true
  | .run i => outsideOperation i
  | .reject _ => true

/-- An action that the outside can take. -/
def outsideAction : Stimulus → Bool
  | .reset => true
  | .line bytes => outsideRequest (requestOf bytes)

/-- Only actions that the outside can take are pending. -/
def State.OutsideOnly (s : State) : Prop := ∀ x ∈ s.pending, outsideAction x = true

/-- 10_state.md R43(c): the buses are idle between steps, as long as only the outside's own actions are placed. -/
def State.IdleBusInv (s : State) : Prop := s.OutsideOnly ∧ (s.initialized = true → s.BusIdle)

/-- One step's samples, `In.raw` and `In.now`. -/
abbrev Sample := Bool × Nat

/-- Successive polls of the filter: its registers after them, and the events of each. -/
def pollAll (c : Cfg) : List Sample → BeamState → BeamState × List Edges
  | [], b => (b, [])
  | x :: rest, b =>
    ((pollAll c rest (debouncePoll c x.1 x.2 b).1).1,
      (debouncePoll c x.1 x.2 b).2 :: (pollAll c rest (debouncePoll c x.1 x.2 b).1).2)

/-- Successive updates of the timer, each with its `fall` and `now`. -/
def updateAll (c : Cfg) : List Sample → LapState → LapState
  | [], l => l
  | x :: rest, l => updateAll c rest (lapUpdate c x.1 x.2 l)

/-- The timer's inputs in a run of steps: each step's `fall` with its `now`. -/
def fallSamples (c : Cfg) (ps : List Sample) (b : BeamState) : List Sample :=
  ((pollAll c ps b).2.map (fun e => e.fall)).zip (ps.map (fun x => x.2))

/-- Operations one after the other, as a rule's pseudocode writes them. -/
def execAll : List Instr → State → Host.Outcome State Fault Refusal
  | [], s => .next s
  | i :: rest, s =>
    match exec i s with
    | .next t => execAll rest t
    | .fault f => .fault f
    | .refused r => .refused r

/-- The stimulus lines of a run of steps (30_encoding.md R93, R94). -/
def stepLines (ps : List Sample) : List Stimulus := ps.map (fun x => .line (encode (.step x.1 x.2)))

/-- The stimulus lines of `SESSION ch, b0, b1, ...` (30_encoding.md R94). -/
def sessionLines (ch : Channel) (bs : List Byte) : List Stimulus :=
  .line (encode (.start ch)) :: (bs.map (fun b => .line (encode (.writeByte ch b)))) ++ [.line (encode (.stop ch))]

/-- The sample taken at the true time `t` microseconds: `In.now` is `t mod 2^W` (70_reset_and_hazards.md R240). -/
def sampleAt (c : Cfg) (raw : Bool) (t : Nat) : Sample := (raw, t % 2 ^ c.tsWidth)

/-- True times that do not go back (70_reset_and_hazards.md R240). -/
def timesRise : List Nat → Prop
  | t :: u :: rest => t ≤ u ∧ timesRise (u :: rest)
  | _ => True

/-- True times that do not go back and lie at most `gap` apart (70_reset_and_hazards.md R240, R241). -/
def timesWithin (gap : Nat) : List Nat → Prop
  | t :: u :: rest => t ≤ u ∧ u ≤ t + gap ∧ timesWithin gap (u :: rest)
  | _ => True

/-- The elapsed time in seconds, `t = 60 * S.lap_min + S.lap_sec` (43_lap_timer.md R167), 60 being `Cfg.SEC_MAX` + 1. -/
def elapsedSeconds (c : Cfg) (l : LapState) : Nat := (c.secMax + 1) * l.min.val + l.sec.val

/-- How many seconds an elapsed time counts before it is 00:00 again, 6000 with the source's bounds (43_lap_timer.md R167). -/
def secondsRange (c : Cfg) : Nat := (c.minMax + 1) * (c.secMax + 1)

/-- The registers of the filter that keeps a flag instead of the last-seen level (42_debounce.md R150). -/
structure FlagFilter where
  debounced : Bool
  pendingChange : Bool
  changeTs : Nat
  deriving DecidableEq, Repr

/-- One poll of it: the flag is set with the timestamp "when the raw level first differs from the debounced level, cleared
when it equals it again or on commit" (42_debounce.md R150). -/
def flagPoll (c : Cfg) (raw : Bool) (now : Nat) (f : FlagFilter) : FlagFilter × Edges :=
  let g : FlagFilter :=
    if raw = f.debounced then { f with pendingChange := false }
    else if f.pendingChange then f
    else { f with pendingChange := true, changeTs := modW c now }
  if g.pendingChange = true ∧ windowElapsed c now g.changeTs = true then
    ({ g with debounced := raw, pendingChange := false }, commitEdges raw)
  else (g, noEdges)

/-- Successive polls of it. -/
def flagPollAll (c : Cfg) : List Sample → FlagFilter → FlagFilter × List Edges
  | [], f => (f, [])
  | x :: rest, f =>
    ((flagPollAll c rest (flagPoll c x.1 x.2 f).1).1,
      (flagPoll c x.1 x.2 f).2 :: (flagPollAll c rest (flagPoll c x.1 x.2 f).1).2)

/-- Every change of the data wire's direction on channel `ch` happens while its clock wire, first at `clk`, is 0
(70_reset_and_hazards.md R245). -/
def turnsOnlyWithClockLow (ch : Channel) (clk : Bool) : List PinEvent → Bool
  | [] => true
  | .clk k v :: rest => turnsOnlyWithClockLow ch (if k = ch then v else clk) rest
  | .dir k _ :: rest => (decide (k ≠ ch) || !clk) && turnsOnlyWithClockLow ch clk rest
  | .dio _ _ :: rest => turnsOnlyWithClockLow ch clk rest
  | .delay _ _ :: rest => turnsOnlyWithClockLow ch clk rest

/-- The operations of the driver and the wire bytes, with the channel they work on (41_serial_display_driver.md preamble). -/
def driverChannel : Instr → Option Channel
  | .clkw ch _ => some ch
  | .diow ch _ => some ch
  | .diod ch _ => some ch
  | .delay ch _ => some ch
  | .start ch => some ch
  | .stop ch => some ch
  | .writeByte ch _ => some ch
  | .ackWindow ch => some ch
  | .writeFrame ch _ => some ch
  | .encode _ => none
  | .segbyte _ _ _ => none
  | .debouncePoll _ _ => none
  | .lapUpdate _ _ => none
  | .lapStart _ => none
  | .lapComplete _ => none
  | .lapTick => none
  | .lapHold => none
  | .formatMmss _ _ _ => none
  | .render => none
  | .init => none
  | .step _ _ => none
  | .statusRead => none
  | .cmdData ch => some ch
  | .cmdAddr ch => some ch
  | .cmdCtrl ch _ => some ch
  | .data ch _ _ _ => some ch

/-- The operations of the lap timer (43_lap_timer.md). -/
def timerOperation : Instr → Bool
  | .lapUpdate _ _ => true
  | .lapStart _ => true
  | .lapComplete _ => true
  | .lapTick => true
  | .lapHold => true
  | .clkw _ _ => false
  | .diow _ _ => false
  | .diod _ _ => false
  | .delay _ _ => false
  | .start _ => false
  | .stop _ => false
  | .writeByte _ _ => false
  | .ackWindow _ => false
  | .writeFrame _ _ => false
  | .encode _ => false
  | .segbyte _ _ _ => false
  | .debouncePoll _ _ => false
  | .formatMmss _ _ _ => false
  | .render => false
  | .init => false
  | .step _ _ => false
  | .statusRead => false
  | .cmdData _ => false
  | .cmdAddr _ => false
  | .cmdCtrl _ _ => false
  | .data _ _ _ _ => false

end Sys2Proof.Machine
end

