-- ==== Sys2Proof/Certificates/Slice0/Obligations.lean ====
section
/-!
DEFINITION. The statements for the provers. Each docstring names the rule or section of spec/ it formalises; where the spec
marks that passage as its own decision or derivation, the docstring says so.
-/
open Sys2Proof Sys2Proof.Machine

/-! ### Reset, the queue of outside actions, decoding -/

/-- 10_state.md section 10, 70_reset_and_hazards.md section 1 (R42, R230): after hardware reset `S.initialized` = 0 and the pin
trace is empty, for every configuration; State.reset is that state with the default one. The other registers' reset values are
the model's choice (log 8) and nothing is said of them here. -/
def Obligations.ResetIsUninitialisedWithEmptyTrace : Prop :=
  (∀ c : Cfg, (State.resetWith c).initialized = false ∧ (State.resetWith c).trace = [] ∧ (State.resetWith c).cfg = c) ∧
    State.reset = State.resetWith Config.default

/-- 70_reset_and_hazards.md section 1 (R230), the model's queue (log 1, log 9): a RESET stimulus clears `S.initialized` and the
trace, leaves the other registers at some unspecified values, and keeps the configuration. -/
def Obligations.ResetStimulusLeavesRegistersUnspecified : Prop :=
  ∀ (s : State) (rest : List Stimulus), s.pending = .reset :: rest →
    ∃ p : PowerUp, step s = .next
      { s with
        initialized := false, beam := p.beam, lap := p.lap, pins := p.pins, trace := [], result := .none, pending := rest,
        powerUps := s.powerUps + 1 }

/-- The model's queue (log 1, log 2): a step whose next outside action is a line that decodes to `i` is exec of `i`, the line
taken off the queue, so any well-formed operation whose line is placed runs; with nothing placed a step is an invocation of
STEP with some samples, which the environment draws (00_scope.md section 6, 20_memory.md section 2). There is no program counter
(10_state.md section 8). -/
def Obligations.StepRunsTheDecodedLine : Prop :=
  (∀ (s : State) (bytes : List Byte) (rest : List Stimulus) (i : Instr),
    s.pending = .line bytes :: rest → decode bytes = .ok i → step s = exec i { s with pending := rest }) ∧
  (∀ (s : State) (i : Instr), i.wellFormed = true → step (placeLine (encode i) s) = exec i s) ∧
  (∀ s : State, s.pending = [] →
    ∃ (raw : Bool) (now : Nat), step s = exec (.step raw now) { s with polls := s.polls + 1 })

/-- A machine step stops only on a line that stands for no operation, with the decoder's reason; it never faults. -/
def Obligations.StepStopsExactlyOnUndecodableLines : Prop :=
  (∀ (s : State) (f : Fault), step s ≠ .fault f) ∧
    ∀ (s : State) (q : Refusal),
      step s = .refused q ↔
        ∃ (bytes : List Byte) (rest : List Stimulus) (r : Reject),
          s.pending = .line bytes :: rest ∧ decode bytes = .error r ∧ q = .undecodable r

/-- Words of 30_encoding.md R82 to R85 and R92, bit by bit, in the first byte of a line. The operation numbers are the spec's
decision D31. That 0x40 and 0xC0 name CMD_DATA and CMD_ADDR, whatever `Cfg` holds, and that a place byte tells a data byte, is the
model's deduction (log 4); these two values are the spec's defaults from general knowledge (D19). The operand bytes' layout is the
model's (log 3). -/
def Obligations.SpecWordsDecode : Prop :=
  decode [0b00000000, 0, 1, 1, 0, 0, 0, 0, 0, 0, 0] = .ok (.clkw .B true) ∧
  decode [0b00000110, 0, 0, 0x8F, 0, 0, 0, 0, 0, 0, 0] = .ok (.writeByte .A 0x8F) ∧
  decode [0b00001001, 0, 8, 0, 0, 0, 0, 0, 0, 0, 0] = .ok (.encode 8) ∧
  decode [0b00001011, 0, 0, 0xE8, 0x03, 0, 0, 0, 0, 0, 0] = .ok (.debouncePoll false 1000) ∧
  decode [0b00001111, 0, 0, 0, 0, 0, 0, 0, 0, 0, 0] = .ok .lapTick ∧
  decode [0b00010100, 0, 1, 0xE8, 0x03, 0, 0, 0, 0, 0, 0] = .ok (.step true 1000) ∧
  decode [0b01000000, 0, 0, 0, 0, 0, 0, 0, 0, 0, 0] = .ok (.cmdData .A) ∧
  decode [0b11000000, 0, 1, 0, 0, 0, 0, 0, 0, 0, 0] = .ok (.cmdAddr .B) ∧
  decode [0b10001111, 0, 0, 0, 0, 0, 0, 0, 0, 0, 0] = .ok (.cmdCtrl .A 7) ∧
  decode [0b10000110, 2, 0, 0, 0, 0, 0, 0, 0, 0, 0] = .ok (.data .A 1 true 0x06)

/-- Every well-formed operation is read back from its line, with every operand at every value. The layout is the model's
(log 3), and so is how a line names a wire byte (log 4); the operation numbers are 30_encoding.md's. -/
def Obligations.DecodeOfEncodeGivesTheOperationBack : Prop :=
  ∀ i : Instr, i.wellFormed = true → decode (encode i) = .ok i

/-- Every line that decodes is the one line of its operation, which is well formed (the line format is the model's, log 3 and
log 4). -/
def Obligations.EachOperationHasOneLine : Prop :=
  ∀ (bytes : List Byte) (i : Instr), decode bytes = .ok i → i.wellFormed = true ∧ encode i = bytes

/-- 00_scope.md R5, R6 (the spec's decision D33): a configuration is constructed exactly when it is well formed. The bound 99 on
`MIN_MAX` and `SEC_MAX` is the model's choice (log 26). -/
def Obligations.IllFormedConfigurationsAreRefused : Prop :=
  ∀ d : CfgData,
    (∃ c : Cfg, Cfg.ofData d = some c ∧ c.toCfgData = d) ↔
      1 ≤ d.tsWidth ∧ 1 ≤ d.lapCountWidth ∧ d.minMax ≤ 99 ∧ d.secMax ≤ 99 ∧
      d.debounceWindowUs < 2 ^ d.tsWidth ∧ d.tickPeriodUs < 2 ^ d.tsWidth ∧
      (∀ ch, 2 ≤ d.tHold.get ch) ∧
      (∀ ch n, d.brightness.get ch = some n → n ≤ 7) ∧
      (∀ i j : Digit, d.seg.get i = d.seg.get j → i = j) ∧
      (d.pinClk.a ≠ d.pinDio.a ∧ d.pinClk.a ≠ d.pinClk.b ∧ d.pinClk.a ≠ d.pinDio.b ∧ d.pinClk.a ≠ d.pinBeam ∧
        d.pinDio.a ≠ d.pinClk.b ∧ d.pinDio.a ≠ d.pinDio.b ∧ d.pinDio.a ≠ d.pinBeam ∧
        d.pinClk.b ≠ d.pinDio.b ∧ d.pinClk.b ≠ d.pinBeam ∧ d.pinDio.b ≠ d.pinBeam)

/-- 60_exceptions.md R200: no operation faults, and none is without a next state, in any state and for any operands. -/
def Obligations.EveryOperationAnswersANextState : Prop :=
  ∀ (i : Instr) (s : State), ∃ t : State, exec i s = .next t

/-! ### What each operation does, and its frame -/

/-- 41_serial_display_driver.md section 1 (R110 to R113, the spec's decisions D22, D24, D29): each pin primitive writes its one
pin register, appends its one event, and changes nothing else. -/
def Obligations.PinPrimitivesWriteOneRegisterAndAppendOneEvent : Prop :=
  ∀ (ch : Channel) (s : State),
    (∀ v : Bool, exec (.clkw ch v) s = .next
      { s with
        pins := s.pins.set ch { s.pins.get ch with clk := v }, trace := s.trace ++ [.clk ch v], result := .none }) ∧
    (∀ v : Bool, exec (.diow ch v) s = .next
      { s with
        pins := s.pins.set ch { s.pins.get ch with dioOut := v }, trace := s.trace ++ [.dio ch v], result := .none }) ∧
    (∀ d : Direction, exec (.diod ch d) s = .next
      { s with
        pins := s.pins.set ch { s.pins.get ch with dioDir := d }, trace := s.trace ++ [.dir ch d], result := .none }) ∧
    (∀ n : Nat, exec (.delay ch n) s = .next { s with trace := s.trace ++ [.delay ch n], result := .none })

/-- 41_serial_display_driver.md section 2 (R115, the spec's decision D22): START's five events and its exit levels. -/
def Obligations.StartDrivesItsFiveEvents : Prop :=
  ∀ (ch : Channel) (s : State), exec (.start ch) s = .next
    { s with
      pins := s.pins.set ch { s.pins.get ch with clk := true, dioOut := false }
      trace := s.trace ++
        [.clk ch true, .dio ch true, .delay ch (s.cfg.tHold.get ch), .dio ch false, .delay ch (s.cfg.tHold.get ch)]
      result := .none }

/-- 41_serial_display_driver.md section 3 (R117, the spec's decision D22): STOP's eight events and its exit levels. -/
def Obligations.StopDrivesItsEightEvents : Prop :=
  ∀ (ch : Channel) (s : State), exec (.stop ch) s = .next
    { s with
      pins := s.pins.set ch { s.pins.get ch with clk := true, dioOut := true }
      trace := s.trace ++
        [.clk ch false, .delay ch (s.cfg.tHold.get ch), .dio ch false, .delay ch (s.cfg.tHold.get ch),
          .clk ch true, .delay ch (s.cfg.tHold.get ch), .dio ch true, .delay ch (s.cfg.tHold.get ch)]
      result := .none }

/-- 41_serial_display_driver.md section 4 (R120, the spec's decisions D22, D23): the acknowledge window, with and without the
ninth clock, and its exit levels; the latch is kept. -/
def Obligations.AckWindowReleasesAndRestores : Prop :=
  ∀ (ch : Channel) (s : State), exec (.ackWindow ch) s = .next
    { s with
      pins := s.pins.set ch { s.pins.get ch with clk := false, dioDir := .output }
      trace := s.trace ++
        (if s.cfg.ackNinthClock = true then
          [.clk ch false, .dir ch .input, .delay ch s.cfg.ackWindowUs, .clk ch true, .delay ch (s.cfg.tHold.get ch),
            .clk ch false, .dir ch .output]
        else [.clk ch false, .dir ch .input, .delay ch s.cfg.ackWindowUs, .dir ch .output])
      result := .none }

/-- 41_serial_display_driver.md section 4 (R118, R119, the spec's decision D22): WRITE_BYTE draws bits 0 to 7 in five events
each, then the acknowledge window; it ends with clock 0, latch bit 7, driven. -/
def Obligations.WriteByteDrawsEightCellsAndTheWindow : Prop :=
  ∀ (ch : Channel) (b : Byte) (s : State), exec (.writeByte ch b) s = .next
    { s with
      pins := s.pins.set ch { clk := false, dioOut := b.getLsbD 7, dioDir := .output }
      trace := s.trace ++
        (List.range 8).flatMap (fun k =>
          [.clk ch false, .dio ch (b.getLsbD k), .delay ch (s.cfg.tHold.get ch), .clk ch true,
            .delay ch (s.cfg.tHold.get ch)]) ++
        (if s.cfg.ackNinthClock = true then
          [.clk ch false, .dir ch .input, .delay ch s.cfg.ackWindowUs, .clk ch true, .delay ch (s.cfg.tHold.get ch),
            .clk ch false, .dir ch .output]
        else [.clk ch false, .dir ch .input, .delay ch s.cfg.ackWindowUs, .dir ch .output])
      result := .none }

/-- 30_encoding.md R80, R82 to R85 (what a wire byte does as an operation is DEDUCED, log 5): each command byte and each data
byte is put on its channel as WRITE_BYTE puts it, with the value of the configuration. -/
def Obligations.WireBytesGoOutAsWriteByte : Prop :=
  ∀ (ch : Channel) (s : State),
    (∃ t, exec (.cmdData ch) s = .next t ∧ exec (.writeByte ch s.cfg.cmdDataAutoinc) s = .next t) ∧
    (∃ t, exec (.cmdAddr ch) s = .next t ∧ exec (.writeByte ch s.cfg.cmdAddrBase) s = .next t) ∧
    (∀ br : BitVec 3, ∃ t, exec (.cmdCtrl ch br) s = .next t ∧
      exec (.writeByte ch (s.cfg.cmdDisplayOn ||| br.setWidth 8)) s = .next t) ∧
    (∀ (i : Place) (c : Bool) (seg : Segments), ∃ t, exec (.data ch i c seg) s = .next t ∧
      exec (.writeByte ch (if i = 1 ∧ c = true then seg.setWidth 8 ||| s.cfg.colonMask else seg.setWidth 8)) s = .next t)

/-- 40_segment_codec.md R100: ENCODE returns the table's entry and writes nothing. -/
def Obligations.EncodeReturnsTheTableEntry : Prop :=
  ∀ (d : Digit) (s : State), exec (.encode d) s = .next { s with result := .segments (s.cfg.seg.get d) }

/-- 40_segment_codec.md R104 (placement and mask are the spec's decisions D17, D18): SEGBYTE returns the pattern, the colon mask
ORed in at place 1 only, and writes nothing. -/
def Obligations.SegbyteOrsTheColonAtPlaceOne : Prop :=
  ∀ (d : Digit) (i : Place) (colon : Bool) (s : State), exec (.segbyte d i colon) s = .next
    { s with
      result := .byte (if i = 1 ∧ colon = true then (s.cfg.seg.get d).setWidth 8 ||| s.cfg.colonMask
        else (s.cfg.seg.get d).setWidth 8) }

/-- 41_serial_display_driver.md section 5 (R121; the brightness in every frame is the spec's decision D20): WRITE_FRAME is the
START, WRITE_BYTE and STOP of its pseudocode, one after the other, in every state. -/
def Obligations.WriteFrameIsItsStartsBytesAndStops : Prop :=
  ∀ (ch : Channel) (f : DigitFrame) (s : State), ∃ (b0 b1 b2 b3 : Byte) (t : State),
    exec (.segbyte f.d0 0 f.colon) s = .next { s with result := .byte b0 } ∧
    exec (.segbyte f.d1 1 f.colon) s = .next { s with result := .byte b1 } ∧
    exec (.segbyte f.d2 2 f.colon) s = .next { s with result := .byte b2 } ∧
    exec (.segbyte f.d3 3 f.colon) s = .next { s with result := .byte b3 } ∧
    exec (.writeFrame ch f) s = .next t ∧
    execAll
      ([.start ch, .writeByte ch s.cfg.cmdDataAutoinc, .stop ch,
        .start ch, .writeByte ch s.cfg.cmdAddrBase, .writeByte ch b0, .writeByte ch b1, .writeByte ch b2, .writeByte ch b3,
        .stop ch] ++
        (match s.cfg.brightness.get ch with
          | none => []
          | some n => [.start ch, .writeByte ch (s.cfg.cmdDisplayOn ||| BitVec.ofNat 8 n), .stop ch])) s = .next t

/-- 42_debounce.md R142 (reading of the transition: the spec's decision D4, 90_conflicts.md C1): record, then commit on the
registers as the record left them; nothing but BeamState is written. A sample's time is taken modulo 2^`W` (log 27). -/
def Obligations.DebouncePollRecordsThenCommits : Prop :=
  ∀ (raw : Bool) (now : Nat) (s : State),
    let ts : Nat := if raw = s.beam.lastRaw then s.beam.changeTs else now % 2 ^ s.cfg.tsWidth
    if raw ≠ s.beam.debounced ∧ (s.cfg.debounceWindowUs : Int) ≤ ((now : Int) - ts) % 2 ^ s.cfg.tsWidth then
      exec (.debouncePoll raw now) s = .next
        { s with beam := { lastRaw := raw, debounced := raw, changeTs := ts }, result := .edges (!raw) raw }
    else
      exec (.debouncePoll raw now) s = .next
        { s with beam := { s.beam with lastRaw := raw, changeTs := ts }, result := .edges false false }

/-- 43_lap_timer.md R162: LAP_START's registers and nothing else, for every time of `W` bits; an idle timer's update on a beam
break is it. -/
def Obligations.LapStartResetsAndRuns : Prop :=
  ∀ (now : Nat) (s : State), now < 2 ^ s.cfg.tsWidth →
    exec (.lapStart now) s = .next
      { s with lap := { s.lap with running := true, min := 0, sec := 0, tickRef := now }, result := .none } ∧
    (s.lap.running = false → exec (.lapUpdate true now) s = exec (.lapStart now) s)

/-- 43_lap_timer.md R163, R164 (the count's wrap is the spec's decision D10, the pause policy D9): the elapsed time is copied
before it is reset. The time is taken modulo 2^`W` (log 27). -/
def Obligations.LapCompleteRecordsTheLap : Prop :=
  ∀ (now : Nat) (s : State),
    (s.cfg.lapPolicy = .restartOnLap → exec (.lapComplete now) s = .next
      { s with
        lap := { s.lap with
          lastMin := s.lap.min, lastSec := s.lap.sec, valid := true, count := (s.lap.count + 1) % 2 ^ s.cfg.lapCountWidth,
          min := 0, sec := 0, tickRef := now % 2 ^ s.cfg.tsWidth }
        result := .none }) ∧
    (s.cfg.lapPolicy = .pauseOnLap → exec (.lapComplete now) s = .next
      { s with
        lap := { s.lap with
          lastMin := s.lap.min, lastSec := s.lap.sec, valid := true, count := (s.lap.count + 1) % 2 ^ s.cfg.lapCountWidth,
          running := false }
        result := .none })

/-- 43_lap_timer.md R165: the reference moves by exactly one period, modulo 2^`W`, and the seconds cascade into the minutes at
`Cfg.SEC_MAX` and `Cfg.MIN_MAX` (an elapsed time in range, which StepKeepsLapRecordConsistent gives). A running timer's update
without an event is one LAP_TICK as soon as a period has elapsed, however many have: R161, the spec's decision D7 (log 22). -/
def Obligations.LapTickAdvancesReferenceAndCascades : Prop :=
  ∀ s : State, ∃ l : LapState,
    exec .lapTick s = .next { s with lap := l, result := .none } ∧
    (∀ now : Nat, s.lap.running = true →
      (s.cfg.tickPeriodUs : Int) ≤ ((now : Int) - s.lap.tickRef) % 2 ^ s.cfg.tsWidth →
      exec (.lapUpdate false now) s = exec .lapTick s) ∧
    l.tickRef = (s.lap.tickRef + s.cfg.tickPeriodUs) % 2 ^ s.cfg.tsWidth ∧
    (s.lap.ElapsedInRange s.cfg →
      (s.lap.sec.val = s.cfg.secMax →
        l.sec.val = 0 ∧ l.min.val = if s.lap.min.val = s.cfg.minMax then 0 else s.lap.min.val + 1) ∧
      (s.lap.sec.val ≠ s.cfg.secMax → l.sec.val = s.lap.sec.val + 1 ∧ l.min = s.lap.min)) ∧
    l.running = s.lap.running ∧ l.lastMin = s.lap.lastMin ∧ l.lastSec = s.lap.lastSec ∧ l.valid = s.lap.valid ∧
    l.count = s.lap.count

/-- 43_lap_timer.md R167: with `t = 60 * min + sec`, LAP_TICK gives `(t + 1) mod 6000`, split again into minutes and seconds, 59
and 99 being `Cfg.SEC_MAX` and `Cfg.MIN_MAX`: for every value of these fields, and with the source's values. -/
def Obligations.LapTickCountsModulo6000 : Prop :=
  ∀ s : State, s.lap.ElapsedInRange s.cfg → ∃ t : State, exec .lapTick s = .next t ∧ t.result = .none ∧
    t.lap.min.val = ((s.cfg.secMax + 1) * s.lap.min.val + s.lap.sec.val + 1) %
      ((s.cfg.minMax + 1) * (s.cfg.secMax + 1)) / (s.cfg.secMax + 1) ∧
    t.lap.sec.val = ((s.cfg.secMax + 1) * s.lap.min.val + s.lap.sec.val + 1) %
      ((s.cfg.minMax + 1) * (s.cfg.secMax + 1)) % (s.cfg.secMax + 1) ∧
    (s.cfg.secMax = 59 → s.cfg.minMax = 99 →
      t.lap.min.val = (60 * s.lap.min.val + s.lap.sec.val + 1) % 6000 / 60 ∧
      t.lap.sec.val = (60 * s.lap.min.val + s.lap.sec.val + 1) % 6000 % 60)

/-- 43_lap_timer.md section 3 (R166, derived in the spec): "It writes nothing." -/
def Obligations.LapHoldWritesNothing : Prop :=
  ∀ s : State, exec .lapHold s = .next { s with result := .none }

/-- 43_lap_timer.md section 2 (R161, the spec's decisions D7, D8) with the tick test of R170: exactly one arm runs, the event arms
first. -/
def Obligations.LapUpdateRunsExactlyOneArm : Prop :=
  ∀ (fall : Bool) (now : Nat) (s : State), ∃ t : State, exec (.lapUpdate fall now) s = .next t ∧
    (fall = true → s.lap.running = false → exec (.lapStart now) s = .next t) ∧
    (fall = true → s.lap.running = true → exec (.lapComplete now) s = .next t) ∧
    (fall = false → s.lap.running = true →
      (s.cfg.tickPeriodUs : Int) ≤ ((now : Int) - s.lap.tickRef) % 2 ^ s.cfg.tsWidth → exec .lapTick s = .next t) ∧
    (fall = false → s.lap.running = true →
      ((now : Int) - s.lap.tickRef) % 2 ^ s.cfg.tsWidth < (s.cfg.tickPeriodUs : Int) → exec .lapHold s = .next t) ∧
    (fall = false → s.lap.running = false → exec .lapHold s = .next t)

/-- 44_render_and_step.md section 1 (R180, digit order the spec's decision D14), whose seconds are in [0, 59]. That seconds
60 to 99 are split in the same way is the model's choice (log 14). -/
def Obligations.FormatMmssSplitsIntoDigits : Prop :=
  ∀ (m sec : TwoDigits) (colon : Bool) (s : State), ∃ f : DigitFrame,
    exec (.formatMmss m sec colon) s = .next { s with result := .frame f } ∧
    f.d0.val = m.val / 10 ∧ f.d1.val = m.val % 10 ∧ f.d2.val = sec.val / 10 ∧ f.d3.val = sec.val % 10 ∧ f.colon = colon

/-- 44_render_and_step.md section 2 (R183; values and events the spec's decisions D5, D10, D11, D25): INIT's registers, its six
events, and the two timestamps left as they were. -/
def Obligations.InitWritesItsRegistersAndSixEvents : Prop :=
  ∀ s : State, exec .init s = .next
    { s with
      initialized := true
      beam := { lastRaw := s.cfg.beamIdleLevel, debounced := s.cfg.beamIdleLevel, changeTs := s.beam.changeTs }
      lap :=
        { running := false, min := 0, sec := 0, tickRef := s.lap.tickRef, lastMin := 0, lastSec := 0, valid := false,
          count := 0 }
      pins := { a := idlePin, b := idlePin }
      trace := s.trace ++
        [.dir .A .output, .clk .A true, .dio .A true, .dir .B .output, .clk .B true, .dio .B true]
      result := .none }

/-- 44_render_and_step.md R190 (the fields are the spec's decision D34): the status view, and nothing written. -/
def Obligations.StatusReadReturnsTheView : Prop :=
  ∀ s : State, exec .statusRead s = .next
    { s with
      result := .status
        { running := s.lap.running, min := s.lap.min, sec := s.lap.sec, lastMin := s.lap.lastMin,
          lastSec := s.lap.lastSec, valid := s.lap.valid, count := s.lap.count, debounced := s.beam.debounced } }

/-- 44_render_and_step.md section 1 (R181, the spec's decisions D13, D15, D16): RENDER is WRITE_FRAME on channel A of the running
clock, then on channel B of the last lap. -/
def Obligations.RenderWritesClockThenLastLap : Prop :=
  ∀ s : State, ∃ (fA fB : DigitFrame) (u v t : State),
    exec .render s = .next t ∧
    exec (.formatMmss s.lap.min s.lap.sec s.cfg.colonOn) s = .next { s with result := .frame fA } ∧
    exec (.formatMmss s.lap.lastMin s.lap.lastSec s.cfg.colonOn) s = .next { s with result := .frame fB } ∧
    exec (.writeFrame .A fA) s = .next u ∧ exec (.writeFrame .B fB) u = .next v ∧ t = v

/-- 44_render_and_step.md section 3 (R188, the spec's decisions D3, D37; R184, D26): STEP is INIT when not initialised, then
DEBOUNCE_POLL, LAP_UPDATE with its `fall`, and RENDER. -/
def Obligations.StepIsItsFourParts : Prop :=
  ∀ (raw : Bool) (now : Nat) (s : State), ∃ (u v w t : State) (fall rise : Bool),
    (if s.initialized = true then u = s else exec .init s = .next u) ∧
    exec (.debouncePoll raw now) u = .next v ∧ v.result = .edges fall rise ∧
    exec (.lapUpdate fall now) v = .next w ∧
    exec .render w = .next t ∧
    exec (.step raw now) s = .next t

/-- 10_state.md section 1.1, column "Written by", and R20: which operations may change each group of registers; no operation
changes the configuration or the queue. -/
def Obligations.OnlyTheNamedOperationsWriteEachGroup : Prop :=
  ∀ (i : Instr) (s t : State), exec i s = .next t →
    t.cfg = s.cfg ∧ t.pending = s.pending ∧ t.polls = s.polls ∧ t.powerUps = s.powerUps ∧
    (t.initialized ≠ s.initialized → i = .init ∨ ∃ raw now, i = .step raw now) ∧
    (t.beam ≠ s.beam → (∃ raw now, i = .debouncePoll raw now) ∨ i = .init ∨ ∃ raw now, i = .step raw now) ∧
    (t.lap ≠ s.lap → timerOperation i = true ∨ i = .init ∨ ∃ raw now, i = .step raw now) ∧
    (t.pins ≠ s.pins ∨ t.trace ≠ s.trace →
      (driverChannel i).isSome = true ∨ i = .render ∨ i = .init ∨ ∃ raw now, i = .step raw now)

/-- 43_lap_timer.md R168 (derived in the spec): the last lap, its valid bit and the count are written by a completed lap and by
INIT only. -/
def Obligations.OnlyACompletedLapWritesTheLastLap : Prop :=
  ∀ (i : Instr) (s t : State), exec i s = .next t →
    ¬(t.lap.lastMin = s.lap.lastMin ∧ t.lap.lastSec = s.lap.lastSec ∧ t.lap.valid = s.lap.valid ∧
      t.lap.count = s.lap.count) →
    (∃ now, i = .lapComplete now) ∨ (∃ now, i = .lapUpdate true now ∧ s.lap.running = true) ∨ i = .init ∨
      (∃ raw now, i = .step raw now ∧
        (s.initialized = false ∨
          (s.lap.running = true ∧ ∃ u, exec (.debouncePoll raw now) s = .next u ∧ u.result = .edges true false)))

/-- 20_memory.md section 1 (R51): an operation on one channel leaves the other channel's pins, and every register group, as they
were, and its events are all of its own channel. -/
def Obligations.DriverOperationsTouchOneChannel : Prop :=
  ∀ (i : Instr) (ch : Channel) (s t : State), driverChannel i = some ch → exec i s = .next t →
    t.pins.get ch.other = s.pins.get ch.other ∧ t.initialized = s.initialized ∧ t.beam = s.beam ∧ t.lap = s.lap ∧
    ∃ es : List PinEvent, t.trace = s.trace ++ es ∧ ∀ e ∈ es, channelOfEvent e = ch

/-- 41_serial_display_driver.md R123 (section 6): no result and no failure, and the events of a driver operation are "a function of
its operands, `Cfg` and nothing else". That the four wire bytes are driver operations too is the model's deduction (log 5). -/
def Obligations.DriverEventsDependOnOperandsAndCfgOnly : Prop :=
  ∀ (i : Instr) (ch : Channel) (s1 s2 : State), driverChannel i = some ch → s1.cfg = s2.cfg →
    ∃ (t1 t2 : State) (es : List PinEvent), exec i s1 = .next t1 ∧ exec i s2 = .next t2 ∧
      t1.result = .none ∧ t2.result = .none ∧ t1.trace = s1.trace ++ es ∧ t2.trace = s2.trace ++ es

/-- 00_scope.md R10, R11; 10_state.md section 5: an operation only appends to the pin trace, and the pin registers are what the
appended events, one after the other, make of them. -/
def Obligations.TraceIsAppendedAndExplainsThePins : Prop :=
  ∀ (i : Instr) (s t : State), exec i s = .next t →
    ∃ es : List PinEvent, t.trace = s.trace ++ es ∧
      ∀ ch, t.pins.get ch = (es.filter (fun e => decide (channelOfEvent e = ch))).foldl pinAfter (s.pins.get ch)

/-! ### Segment codec and driver, as a receiver reads them -/

/-- 40_segment_codec.md R101: the patterns are pairwise different, so DECODE_SEG inverts ENCODE, and no operation changes the
table. -/
def Obligations.EncodeIsInjectiveAndFixed : Prop :=
  (∀ (s : State) (d e : Digit), exec (.encode d) s = exec (.encode e) s → d = e) ∧
  (∀ (s t : State) (d : Digit) (seg : Segments),
    exec (.encode d) s = .next t → t.result = .segments seg → digitOfSegments s.cfg seg = some d) ∧
  (∀ (i : Instr) (s t : State), exec i s = .next t → t.cfg.seg = s.cfg.seg)

/-- 41_serial_display_driver.md R114: from an idle bus the trace of START holds exactly one start marker, no stop marker and no
data bit, and ends with the clock wire 1 and the data wire 0. -/
def Obligations.StartMakesExactlyOneStartMarker : Prop :=
  ∀ (ch : Channel) (s : State), s.pins.get ch = idlePin →
    ∃ (t : State) (es : List PinEvent), exec (.start ch) s = .next t ∧ t.trace = s.trace ++ es ∧
      (receiveAll ch es (Receiver.idleAt (s.pins.get ch))).starts = 1 ∧
      (receiveAll ch es (Receiver.idleAt (s.pins.get ch))).stops = 0 ∧
      (receiveAll ch es (Receiver.idleAt (s.pins.get ch))).isOpen = true ∧
      (receiveAll ch es (Receiver.idleAt (s.pins.get ch))).bits = [] ∧
      (receiveAll ch es (Receiver.idleAt (s.pins.get ch))).edge = none ∧
      clockWire t ch = true ∧ dataWire t ch = false

/-- 41_serial_display_driver.md R116: after a byte (clock 0, data wire driven) the trace of STOP holds exactly one stop marker, no
start marker and no data bit, and ends with both wires 1, the data wire driven. -/
def Obligations.StopMakesExactlyOneStopMarker : Prop :=
  ∀ (ch : Channel) (s : State) (r : Receiver), (s.pins.get ch).clk = false → (s.pins.get ch).dioDir = .output →
    r.pin = s.pins.get ch → r.isOpen = true → r.edge = none →
    ∃ (t : State) (es : List PinEvent), exec (.stop ch) s = .next t ∧ t.trace = s.trace ++ es ∧
      (receiveAll ch es r).stops = r.stops + 1 ∧ (receiveAll ch es r).starts = r.starts ∧
      (receiveAll ch es r).isOpen = false ∧ (receiveAll ch es r).closed = r.closed ++ [r.bits] ∧
      clockWire t ch = true ∧ dataWire t ch = true ∧ (t.pins.get ch).dioDir = .output

/-- 20_memory.md R55, and section 6 (R62, R63, derived in the spec; the spec's decisions D22, D23): in an open session WRITE_BYTE
carries the byte's eight bits, least significant first, no marker, and no bit in the acknowledge window or at the ninth clock. When
a rising edge carries its bit is the model's deduction (log 18). -/
def Obligations.WriteByteCarriesBitsLeastSignificantFirst : Prop :=
  ∀ (ch : Channel) (b : Byte) (s : State) (r : Receiver), (s.pins.get ch).dioDir = .output → r.pin = s.pins.get ch →
    r.isOpen = true → r.edge = none →
    ∃ (t : State) (es : List PinEvent), exec (.writeByte ch b) s = .next t ∧ t.trace = s.trace ++ es ∧
      (receiveAll ch es r).bits = r.bits ++ (List.range 8).map (fun k => b.getLsbD k) ∧
      (receiveAll ch es r).edge = none ∧ (receiveAll ch es r).isOpen = true ∧
      (receiveAll ch es r).starts = r.starts ∧ (receiveAll ch es r).stops = r.stops ∧
      (receiveAll ch es r).closed = r.closed

/-- 30_encoding.md section 5 (R94) and 20_memory.md section 6 (R64): the lines of `SESSION ch, b0, b1, ...`, run from an idle bus,
put exactly that one session on the channel, whatever the configuration. -/
def Obligations.SessionLinesCarryTheirBytes : Prop :=
  ∀ (ch : Channel) (bs : List Byte) (s : State), s.pins.get ch = idlePin → s.pending = sessionLines ch bs →
    ∃ (t : State) (es : List PinEvent), Sys2Proof.core.run (bs.length + 2) s = .next t ∧ t.trace = s.trace ++ es ∧
      sessionsFrom idlePin ch es = [bs] ∧ t.pins = s.pins ∧ t.pending = []

/-- 30_encoding.md R86: from an idle bus WRITE_FRAME puts on its channel the sessions (a), (b) and, when a brightness is
configured, (c), for every configuration; nothing on the other channel; the bus ends idle and no register is changed. -/
def Obligations.FrameIsTwoOrThreeSessions : Prop :=
  ∀ (ch : Channel) (f : DigitFrame) (s : State), s.pins.get ch = idlePin →
    ∃ es : List PinEvent,
      exec (.writeFrame ch f) s = .next { s with trace := s.trace ++ es, result := .none } ∧
      sessionsFrom idlePin ch es =
        [s.cfg.cmdDataAutoinc] ::
        [s.cfg.cmdAddrBase,
          (s.cfg.seg.get f.d0).setWidth 8,
          (if f.colon = true then (s.cfg.seg.get f.d1).setWidth 8 ||| s.cfg.colonMask else (s.cfg.seg.get f.d1).setWidth 8),
          (s.cfg.seg.get f.d2).setWidth 8,
          (s.cfg.seg.get f.d3).setWidth 8] ::
        (match s.cfg.brightness.get ch with
          | none => []
          | some n => [[s.cfg.cmdDisplayOn ||| BitVec.ofNat 8 n]]) ∧
      sessionsFrom idlePin ch.other es = []

/-- 20_memory.md section 5 (R58, derived in the spec): read by a peripheral that acts on the commands as their names say, a frame
writes DATA_BYTE(0) to DATA_BYTE(3) to positions 0 to 3, in that order, and nothing else. -/
def Obligations.FrameWritesFourDisplayPositions : Prop :=
  ∀ (ch : Channel) (f : DigitFrame) (s : State), s.pins.get ch = idlePin →
    ∃ (t : State) (es : List PinEvent), exec (.writeFrame ch f) s = .next t ∧ t.trace = s.trace ++ es ∧
      displayWrites s.cfg (sessionsFrom idlePin ch es) =
        [(0, dataByte s.cfg f.d0 0 f.colon), (1, dataByte s.cfg f.d1 1 f.colon),
          (2, dataByte s.cfg f.d2 2 f.colon), (3, dataByte s.cfg f.d3 3 f.colon)]

/-- 41_serial_display_driver.md section 6, table of R125 (derived in the spec): the number of events and the sum of the delays of
WRITE_FRAME, with and without the brightness session, for both values of the ninth clock. -/
def Obligations.FrameEventAndDelayCounts : Prop :=
  ∀ (ch : Channel) (f : DigitFrame) (s : State), ∃ (t : State) (es : List PinEvent),
    exec (.writeFrame ch f) s = .next t ∧ t.trace = s.trace ++ es ∧
    (let n := if s.cfg.ackNinthClock = true then 1 else 0
     let hold := s.cfg.tHold.get ch
     let ack := s.cfg.ackWindowUs
     match s.cfg.brightness.get ch with
     | none => es.length = 290 + 18 * n ∧ delaySum es = (108 + 6 * n) * hold + 6 * ack
     | some _ => es.length = 347 + 21 * n ∧ delaySum es = (130 + 7 * n) * hold + 7 * ack)

/-- 70_reset_and_hazards.md R245 (derived in the spec): in every step the data wire of each channel is released and restored only
while its clock is 0; at the step's end it is driven. -/
def Obligations.DataWireTurnsOnlyWithClockLow : Prop :=
  ∀ (raw : Bool) (now : Nat) (s : State), s.initialized = true → s.BusIdle →
    ∃ (t : State) (es : List PinEvent), exec (.step raw now) s = .next t ∧ t.trace = s.trace ++ es ∧
      (∀ ch, turnsOnlyWithClockLow ch (s.pins.get ch).clk es = true) ∧ t.BusIdle

/-! ### The debounce filter -/

/-- 42_debounce.md R144: when the raw level changes back to the debounced level, the filter is settled again with the new
timestamp, no event is produced and the debounced level is unchanged; and every change of the raw level restarts the window. For
every time of `W` bits. -/
def Obligations.NoiseIsDiscardedAndRestartsTheWindow : Prop :=
  ∀ (raw : Bool) (now : Nat) (s : State), now < 2 ^ s.cfg.tsWidth → ∃ (t : State) (fall rise : Bool),
    exec (.debouncePoll raw now) s = .next t ∧ t.result = .edges fall rise ∧
    (s.beam.lastRaw ≠ s.beam.debounced → raw = s.beam.debounced →
      t.beam = { lastRaw := raw, debounced := s.beam.debounced, changeTs := now } ∧ fall = false ∧ rise = false) ∧
    (raw ≠ s.beam.lastRaw → t.beam.lastRaw = raw ∧ t.beam.changeTs = now)

/-- 10_state.md R25, 42_debounce.md R149 (derived there): from a settled filter, a poll that changes the debounced level comes
after an unbroken run of polls that sampled the new level, the first of which lies at least the window before it. -/
def Obligations.DebouncedLevelChangesOnlyWhenStable : Prop :=
  ∀ (s : State) (ps : List Sample) (raw : Bool) (now : Nat) (t : State),
    0 < s.cfg.debounceWindowUs → s.beam.lastRaw = s.beam.debounced →
    exec (.debouncePoll raw now) { s with beam := (pollAll s.cfg ps s.beam).1 } = .next t →
    t.beam.debounced ≠ (pollAll s.cfg ps s.beam).1.debounced →
    t.beam.debounced = raw ∧
    ∃ (before after : List Sample) (t0 : Nat), ps = before ++ (raw, t0) :: after ∧ (∀ x ∈ after, x.1 = raw) ∧
      (s.cfg.debounceWindowUs : Int) ≤ ((now : Int) - t0) % 2 ^ s.cfg.tsWidth

/-- 42_debounce.md section 4 (R148; its figure of two windows is derived in the spec): between two beam breaks there is a rising
event and at least two windows of true time, on any clock that does not go back. -/
def Obligations.BeamBreaksAreTwoWindowsApart : Prop :=
  ∀ (c : Cfg) (b : BeamState) (x y : Bool × Nat) (mid : List (Bool × Nat)),
    timesRise ((x :: mid ++ [y]).map (fun p => p.2)) →
    (debouncePoll c x.1 (x.2 % 2 ^ c.tsWidth) b).2.fall = true →
    (debouncePoll c y.1 (y.2 % 2 ^ c.tsWidth)
      (pollAll c (mid.map (fun p => sampleAt c p.1 p.2)) (debouncePoll c x.1 (x.2 % 2 ^ c.tsWidth) b).1).1).2.fall = true →
    x.2 + 2 * c.debounceWindowUs ≤ y.2 ∧
    ∃ e ∈ (pollAll c (mid.map (fun p => sampleAt c p.1 p.2)) (debouncePoll c x.1 (x.2 % 2 ^ c.tsWidth) b).1).2, e.rise = true

/-- 42_debounce.md section 4 (R150, derived in the spec): the filter that keeps a pending flag gives the same level and the same
events at every poll. -/
def Obligations.PendingFlagFilterIsEquivalent : Prop :=
  ∀ (c : Cfg) (b : BeamState) (ps : List Sample), b.lastRaw = b.debounced →
    (pollAll c ps b).2 =
      (flagPollAll c ps { debounced := b.debounced, pendingChange := false, changeTs := b.changeTs }).2 ∧
    (pollAll c ps b).1.debounced =
      (flagPollAll c ps { debounced := b.debounced, pendingChange := false, changeTs := b.changeTs }).1.debounced

/-- 42_debounce.md section 4 (R151, derived in the spec): a settled filter's timestamp has no effect on any later event or level. -/
def Obligations.StaleTimestampIsNeverRead : Prop :=
  ∀ (c : Cfg) (b : BeamState) (ts : Nat) (ps : List Sample), b.lastRaw = b.debounced →
    (pollAll c ps b).2 = (pollAll c ps { b with changeTs := ts }).2 ∧
    (pollAll c ps b).1.lastRaw = (pollAll c ps { b with changeTs := ts }).1.lastRaw ∧
    (pollAll c ps b).1.debounced = (pollAll c ps { b with changeTs := ts }).1.debounced

/-! ### The lap timer -/

/-- 10_state.md section 4 (R29, derived there): an idle timer's reference has no effect on anything it does later, except on the
reference itself while it stays idle. -/
def Obligations.IdleTickReferenceIsNeverRead : Prop :=
  ∀ (c : Cfg) (l : LapState) (r : Nat) (ps : List Sample), l.running = false →
    { updateAll c ps { l with tickRef := r } with tickRef := (updateAll c ps l).tickRef } = updateAll c ps l ∧
    ((updateAll c ps l).running = true → updateAll c ps { l with tickRef := r } = updateAll c ps l)

/-- 43_lap_timer.md R169, R171, R172 (the last two derived in the spec): from a lap started at true time `start`, polled without an
event at true times at most a period apart, the elapsed time is the whole periods since the start, modulo the range of the
two fields (6000 seconds with the source's bounds), and the reference has moved by exactly those periods: no drift, however the polls fall. -/
def Obligations.ElapsedTimeIsWholePeriodsSinceTheStart : Prop :=
  ∀ (c : Cfg) (l : LapState) (start : Nat) (times : List Nat),
    0 < c.tickPeriodUs → 2 * c.tickPeriodUs ≤ 2 ^ c.tsWidth → timesWithin c.tickPeriodUs (start :: times) →
    elapsedSeconds c (updateAll c (times.map (fun t => sampleAt c false t)) (lapStart c (start % 2 ^ c.tsWidth) l)) =
      (times.getLastD start - start) / c.tickPeriodUs % secondsRange c ∧
    (updateAll c (times.map (fun t => sampleAt c false t)) (lapStart c (start % 2 ^ c.tsWidth) l)).tickRef =
      (start + (times.getLastD start - start) / c.tickPeriodUs * c.tickPeriodUs) % 2 ^ c.tsWidth

/-! ### Whole steps and whole-machine rules -/

/-- 44_render_and_step.md R186, 20_memory.md R68: a run of steps from an initialised state with idle buses polls the filter once a
step and hands the timer that step's event, for any number of steps whose times fit a line (log 16). -/
def Obligations.RunOfStepsThreadsFilterAndTimer : Prop :=
  ∀ (s : State) (ps : List Sample), s.initialized = true → s.BusIdle → s.pending = stepLines ps →
    (∀ x ∈ ps, x.2 < 2 ^ 64) →
    ∃ t : State, Sys2Proof.core.run ps.length s = .next t ∧
      t.beam = (pollAll s.cfg ps s.beam).1 ∧ t.lap = updateAll s.cfg (fallSamples s.cfg ps s.beam) s.lap ∧
      t.initialized = true ∧ t.BusIdle ∧ t.cfg = s.cfg ∧ t.pending = []

/-- 44_render_and_step.md R182: every step, with or without an event, with or without a change, sends one full frame on each
display: the running clock on A and the last lap on B, as the step left them (channels and digit order: D13, D14). -/
def Obligations.EveryStepSendsOneFramePerDisplay : Prop :=
  ∀ (raw : Bool) (now : Nat) (s : State), s.initialized = true → s.BusIdle →
    ∃ (t : State) (es : List PinEvent) (fA fB : DigitFrame),
      exec (.step raw now) s = .next t ∧ t.trace = s.trace ++ es ∧ t.BusIdle ∧
      exec (.formatMmss t.lap.min t.lap.sec t.cfg.colonOn) t = .next { t with result := .frame fA } ∧
      exec (.formatMmss t.lap.lastMin t.lap.lastSec t.cfg.colonOn) t = .next { t with result := .frame fB } ∧
      sessionsFrom idlePin .A es = frameSessions s.cfg .A fA ∧
      sessionsFrom idlePin .B es = frameSessions s.cfg .B fB

/-- 43_lap_timer.md R168, §8 of the source: over any number of steps without a new beam break the last lap, its valid bit and the
count are unchanged, and every one of those steps renders the last lap on channel B again. The steps' times fit a line (log 16). -/
def Obligations.LastLapPersistsUnderPolling : Prop :=
  ∀ (s : State) (ps : List Sample), s.initialized = true → s.BusIdle → s.pending = stepLines ps →
    (∀ x ∈ ps, x.2 < 2 ^ 64) →
    (∀ e ∈ (pollAll s.cfg ps s.beam).2, e.fall = false) →
    ∃ (t : State) (es : List PinEvent), Sys2Proof.core.run ps.length s = .next t ∧ t.trace = s.trace ++ es ∧
      t.lap.lastMin = s.lap.lastMin ∧ t.lap.lastSec = s.lap.lastSec ∧ t.lap.valid = s.lap.valid ∧
      t.lap.count = s.lap.count ∧
      sessionsFrom idlePin .B es = (List.replicate ps.length (frameSessions s.cfg .B (lastLapFrame s.cfg s.lap))).flatten

/-- 70_reset_and_hazards.md section 2 (R231, R233, derived there): the first step, from any unspecified registers and pins, leaves
the timer idle at 00:00 with no lap recorded, the filter's level at idle, idle buses, and 00:00 on both displays. -/
def Obligations.FirstStepShowsZeroOnBothDisplays : Prop :=
  ∀ (raw : Bool) (now : Nat) (s : State), s.initialized = false → 0 < s.cfg.debounceWindowUs →
    ∃ (t : State) (es : List PinEvent), exec (.step raw now) s = .next t ∧ t.trace = s.trace ++ es ∧
      t.initialized = true ∧ t.BusIdle ∧ t.beam.lastRaw = raw ∧ t.beam.debounced = s.cfg.beamIdleLevel ∧
      t.lap =
        { running := false, min := 0, sec := 0, tickRef := s.lap.tickRef, lastMin := 0, lastSec := 0, valid := false,
          count := 0 } ∧
      ∀ ch, sessionsFrom (s.pins.get ch) ch es =
        frameSessions s.cfg ch { d0 := 0, d1 := 0, d2 := 0, d3 := 0, colon := s.cfg.colonOn }

/-- 10_state.md section 10 (R42, U5): no register of the state before the first step has an effect on it, beyond the two
timestamps, which are kept and unread. -/
def Obligations.RegistersBeforeInitHaveNoEffect : Prop :=
  ∀ (raw : Bool) (now : Nat) (s1 s2 t1 t2 : State), s1.initialized = false → s2.initialized = false →
    s1.cfg = s2.cfg → exec (.step raw now) s1 = .next t1 → exec (.step raw now) s2 = .next t2 →
    t1.beam.lastRaw = t2.beam.lastRaw ∧ t1.beam.debounced = t2.beam.debounced ∧
    { t1.lap with tickRef := t2.lap.tickRef } = t2.lap ∧ t1.pins = t2.pins ∧
    ∃ es : List PinEvent, t1.trace = s1.trace ++ es ∧ t2.trace = s2.trace ++ es

/-- 10_state.md section 2 (R21): `S.initialized` is 0 after hardware reset, is set to 1 by INIT, which runs inside the first step
and in no later one, and no operation clears it. That the first step is INIT and then goes on as that whole STEP is 44_render_and_step.md R184, the
spec's decision D26 (log 24). -/
def Obligations.InitialisedIsSetOnceAndNeverCleared : Prop :=
  (∀ c : Cfg, (State.resetWith c).initialized = false) ∧
  (∀ s : State, ∃ t, exec .init s = .next t ∧ t.initialized = true) ∧
  (∀ (raw : Bool) (now : Nat) (s u t1 t2 : State), s.initialized = false → exec .init s = .next u →
    exec (.step raw now) s = .next t1 → exec (.step raw now) u = .next t2 → t1 = t2 ∧ t1.initialized = true) ∧
  (∀ (raw : Bool) (now : Nat) (s t : State), s.initialized = true → exec (.step raw now) s = .next t →
    ∃ es, t.trace = s.trace ++ es ∧ ¬ initEvents <+: es) ∧
  (∀ (i : Instr) (s t : State), exec i s = .next t → s.initialized = true → t.initialized = true)

/-- 10_state.md section 11, R43(a), (b) (derived in the spec) and section 1.1: in every state after INIT the elapsed time and the
last lap are in range, and "lap_valid = 0" means count 0 and last lap 00:00; in every state the timestamps and the count fit
their configured widths. Every step keeps each of the three. -/
def Obligations.StepKeepsLapRecordConsistent : Prop :=
  ∀ s t : State, step s = .next t →
    (s.LapRecordInv → t.LapRecordInv) ∧ (s.RangeInv → t.RangeInv) ∧ (s.WidthInv → t.WidthInv)

/-- 10_state.md section 11, R43(c), and 41_serial_display_driver.md section 6, R122 (both derived in the spec): as long as only the
outside's own actions are placed (STEP, STATUS_READ, RESET), every step ends with both buses idle. -/
def Obligations.StepKeepsBothBusesIdle : Prop :=
  ∀ s t : State, s.IdleBusInv → step s = .next t → t.IdleBusInv

/-- The invariants of the two statements before hold right after reset, for every configuration (that the timestamps and the count
fit their widths there rests on the model's reset values, log 8). -/
def Obligations.ResetMeetsBothInvariants : Prop :=
  ∀ c : Cfg, (State.resetWith c).LapRecordInv ∧ (State.resetWith c).RangeInv ∧ (State.resetWith c).WidthInv ∧
    (State.resetWith c).IdleBusInv
end

