-- ==== Sys2Proof/Laws/Config.lean ====
section
/-!
SUPPORT. What a well-formed configuration gives (00_scope.md R6): an injective segment table and brightness in range.
-/
namespace Sys2Proof

theorem brightnessOk_iff (b : Option Nat) : brightnessOk b = true ↔ ∀ n, b = some n → n ≤ 7 := by
  cases b <;> simp [brightnessOk]

theorem nodup_iff_get_injective (v : Vector Segments 10) :
    v.toList.Nodup ↔ ∀ i j : Digit, v.get i = v.get j → i = j := by
  have hl : v.toList.length = 10 := by simp
  rw [List.nodup_iff_injective_get]
  constructor
  · intro h i j hij
    have hv := @h ⟨i.val, by omega⟩ ⟨j.val, by omega⟩ (by simpa [Vector.get] using hij)
    simpa [Fin.ext_iff] using hv
  · intro h i j hij
    have hv := h ⟨i.val, by omega⟩ ⟨j.val, by omega⟩ (by simpa [Vector.get] using hij)
    simpa [Fin.ext_iff] using hv

/-- No two digits share a pattern (40_segment_codec.md R101). -/
theorem Cfg.seg_injective (c : Cfg) {i j : Digit} (h : c.seg.get i = c.seg.get j) : i = j := by
  have hw := c.wf
  simp only [CfgData.wellFormed, Bool.and_eq_true, decide_eq_true_eq, nodup_iff_get_injective] at hw
  exact hw.1.2 i j h

/-- A configured brightness is in [0, 7] (30_encoding.md R89). -/
theorem Cfg.brightness_le (c : Cfg) {ch : Channel} {n : Nat} (h : c.brightness.get ch = some n) : n ≤ 7 := by
  have hw := c.wf
  simp only [CfgData.wellFormed, Bool.and_eq_true, brightnessOk_iff] at hw
  cases ch
  · exact hw.1.1.1.2 n h
  · exact hw.1.1.2 n h

/-- The fields of `Cfg` that other definitions rely on (00_scope.md R5, R6; log 26). -/
theorem Cfg.bounds (c : Cfg) :
    1 ≤ c.tsWidth ∧ 1 ≤ c.lapCountWidth ∧ c.minMax ≤ 99 ∧ c.secMax ≤ 99 ∧ c.debounceWindowUs < 2 ^ c.tsWidth ∧
      c.tickPeriodUs < 2 ^ c.tsWidth := by
  have hw := c.wf
  simp only [CfgData.wellFormed, Bool.and_eq_true, decide_eq_true_eq] at hw
  obtain ⟨⟨⟨⟨⟨⟨⟨⟨⟨⟨⟨h1, h2⟩, h3⟩, h4⟩, h5⟩, h6⟩, _⟩, _⟩, _⟩, _⟩, _⟩, _⟩ := hw
  exact ⟨h1, h2, h3, h4, h5, h6⟩

end Sys2Proof
end

