-- ==== Sys2Proof/Laws/Time.lean ====
section
/-!
SUPPORT. Time of `W` bits (00_scope.md R8): values that fit, and differences of times on a clock.
-/
namespace Sys2Proof.Machine

theorem modW_lt (c : Cfg) (t : Nat) : modW c t < 2 ^ c.tsWidth := Nat.mod_lt _ (Nat.two_pow_pos _)

theorem diffW_lt (c : Cfg) (a b : Nat) : diffW c a b < 2 ^ c.tsWidth := modW_lt c _

theorem addW_lt (c : Cfg) (a : Nat) (b : Nat) : addW c a b < 2 ^ c.tsWidth := modW_lt c _

@[simp] theorem modW_modW (c : Cfg) (t : Nat) : modW c (modW c t) = modW c t := Nat.mod_mod _ _

@[simp] theorem diffW_modW_left (c : Cfg) (a b : Nat) : diffW c (modW c a) b = diffW c a b := by
  simp only [diffW, modW_modW]

@[simp] theorem diffW_modW_right (c : Cfg) (a b : Nat) : diffW c a (modW c b) = diffW c a b := by
  simp only [diffW, modW_modW]

@[simp] theorem addW_modW (c : Cfg) (a : Nat) (b : Nat) : addW c (modW c a) b = modW c (a + b) := by
  simp only [addW, modW, Nat.mod_add_mod]

/-- `diff_W` of `W`-bit values: `b` added back gives `a` (00_scope.md R8). -/
theorem diffW_add (c : Cfg) (a b : Nat) : modW c (diffW c a b + b) = modW c a := by
  simp only [diffW, modW, Nat.mod_add_mod]
  generalize hM : 2 ^ c.tsWidth = M
  have hb : b % M < M := Nat.mod_lt _ (hM ▸ Nat.two_pow_pos _)
  have hd : M * (b / M) + b % M = b := Nat.div_add_mod b M
  have e : a + (M - b % M) + b = a + M * (b / M + 1) := by rw [Nat.mul_add, Nat.mul_one]; omega
  rw [e, Nat.add_mul_mod_self_left]

/-- `diff_W(a, b) = (a - b) mod 2^W`, as the rule writes it, over the integers (00_scope.md R8). -/
theorem diffW_int (c : Cfg) (a b : Nat) : (diffW c a b : Int) = ((a : Int) - b) % 2 ^ c.tsWidth := by
  have h := congrArg (Nat.cast : Nat → Int) (diffW_add c a b)
  have hl : (diffW c a b : Int) < 2 ^ c.tsWidth := by exact_mod_cast diffW_lt c a b
  simp only [modW, Int.natCast_mod, Int.natCast_add, Int.natCast_pow, Int.cast_ofNat_Int] at h
  have h2 := Int.emod_eq_emod_iff_emod_sub_eq_zero.mp h
  rw [← Int.emod_eq_of_lt (Int.natCast_nonneg (diffW c a b)) hl]
  apply Int.emod_eq_emod_iff_emod_sub_eq_zero.mpr
  rw [← h2]
  congr 1
  ring

/-- On a clock that does not go back `diff_W` is the true difference modulo 2^`W` (70_reset_and_hazards.md R240). -/
theorem diffW_true (c : Cfg) {t u : Nat} (h : t ≤ u) : diffW c u t = modW c (u - t) := by
  have e := diffW_add c u t
  have hl := diffW_lt c u t
  simp only [modW] at *
  have e2 : (diffW c u t + t) % 2 ^ c.tsWidth = (u - t + t) % 2 ^ c.tsWidth := by rw [e, Nat.sub_add_cancel h]
  have e3 : diffW c u t % 2 ^ c.tsWidth = (u - t) % 2 ^ c.tsWidth := Nat.ModEq.add_right_cancel' t e2
  rwa [Nat.mod_eq_of_lt hl] at e3

/-- So it is at most the true one (42_debounce.md R146). -/
theorem diffW_le_true (c : Cfg) {t u : Nat} (h : t ≤ u) : diffW c u t ≤ u - t := by
  rw [diffW_true c h]
  exact Nat.mod_le _ _

/-- And it is the true one below the wrap (70_reset_and_hazards.md R248). -/
theorem diffW_of_lt (c : Cfg) {t u : Nat} (h : t ≤ u) (hw : u - t < 2 ^ c.tsWidth) : diffW c u t = u - t := by
  rw [diffW_true c h, modW, Nat.mod_eq_of_lt hw]

@[simp] theorem diffW_self (c : Cfg) (t : Nat) : diffW c t t = 0 := by
  rw [diffW_true c (Nat.le_refl t), Nat.sub_self, modW, Nat.zero_mod]

end Sys2Proof.Machine
end

