-- ==== Sys2Proof/Laws/Debounce.lean ====
section
/-!
SUPPORT. What one poll of the debounce filter can do, and successive polls.
-/
namespace Sys2Proof.Machine

/-- The timestamp after the record part. -/
def stampAfter (c : Cfg) (raw : Bool) (now : Nat) (b : BeamState) : Nat :=
  if raw = b.lastRaw then b.changeTs else modW c now

/-- Everything a poll can do: it commits the sampled level, or it leaves the debounced level and reports nothing. -/
theorem debouncePoll_cases (c : Cfg) (raw : Bool) (now : Nat) (b : BeamState) :
    (raw ≠ b.debounced ∧ c.debounceWindowUs ≤ diffW c now (stampAfter c raw now b) ∧
      debouncePoll c raw now b =
        ({ lastRaw := raw, debounced := raw, changeTs := stampAfter c raw now b }, commitEdges raw)) ∨
    ((raw ≠ b.debounced → diffW c now (stampAfter c raw now b) < c.debounceWindowUs) ∧
      debouncePoll c raw now b =
        ({ lastRaw := raw, debounced := b.debounced, changeTs := stampAfter c raw now b }, noEdges)) := by
  have hr : recordChange c raw now b =
      { lastRaw := raw, debounced := b.debounced, changeTs := stampAfter c raw now b } := by
    unfold recordChange stampAfter
    by_cases h : raw = b.lastRaw
    · rw [if_neg (not_not_intro h), if_pos h, h]
    · rw [if_pos h, if_neg h]
  simp only [debouncePoll, hr, commitChange, windowElapsed, decide_eq_true_eq]
  by_cases hc : raw ≠ b.debounced ∧ c.debounceWindowUs ≤ diffW c now (stampAfter c raw now b)
  · rw [if_pos hc]
    exact .inl ⟨hc.1, hc.2, rfl⟩
  · rw [if_neg hc]
    exact .inr ⟨fun hd => Nat.lt_of_not_le fun hw => hc ⟨hd, hw⟩, rfl⟩

/-- After a poll the last-seen level is the sampled one (10_state.md R22). -/
theorem debouncePoll_lastRaw (c : Cfg) (raw : Bool) (now : Nat) (b : BeamState) :
    (debouncePoll c raw now b).1.lastRaw = raw := by
  rcases debouncePoll_cases c raw now b with ⟨_, _, h⟩ | ⟨_, h⟩ <;> rw [h]

/-- `fall` and `rise` are never both 1 (42_debounce.md R147). -/
theorem debouncePoll_not_both (c : Cfg) (raw : Bool) (now : Nat) (b : BeamState) :
    ¬((debouncePoll c raw now b).2.fall = true ∧ (debouncePoll c raw now b).2.rise = true) := by
  rcases debouncePoll_cases c raw now b with ⟨_, _, h⟩ | ⟨_, h⟩ <;> rw [h] <;> cases raw <;> simp [commitEdges, noEdges]

theorem pollAll_append (c : Cfg) (ps qs : List Sample) (b : BeamState) :
    pollAll c (ps ++ qs) b =
      ((pollAll c qs (pollAll c ps b).1).1, (pollAll c ps b).2 ++ (pollAll c qs (pollAll c ps b).1).2) := by
  induction ps generalizing b with
  | nil => rfl
  | cons x ps ih => simp [pollAll, ih]

theorem pollAll_length (c : Cfg) (ps : List Sample) (b : BeamState) : (pollAll c ps b).2.length = ps.length := by
  induction ps generalizing b with
  | nil => rfl
  | cons x ps ih => simp [pollAll, ih]

/-- A poll keeps the timestamp in its width. -/
theorem debouncePoll_width (c : Cfg) (raw : Bool) (now : Nat) (b : BeamState) (h : b.changeTs < 2 ^ c.tsWidth) :
    (debouncePoll c raw now b).1.changeTs < 2 ^ c.tsWidth := by
  have hs : stampAfter c raw now b < 2 ^ c.tsWidth := by
    unfold stampAfter
    split
    · exact h
    · exact modW_lt c now
  rcases debouncePoll_cases c raw now b with ⟨_, _, e⟩ | ⟨_, e⟩ <;> rw [e] <;> exact hs

end Sys2Proof.Machine
end

