-- ==== Sys2Proof/Laws/Decode.lean ====
section
/-!
SUPPORT. The small lemmas of the decoder: each operand is read back from its bytes, and each byte that is read is the
operand's.
-/
namespace Sys2Proof

@[simp] theorem channelOf_channelByte (ch : Channel) : channelOf (channelByte ch) = .ok ch := by cases ch <;> rfl

@[simp] theorem bitOf_bitByte (v : Bool) : bitOf (bitByte v) = .ok v := by cases v <;> rfl

@[simp] theorem directionOf_directionByte (d : Direction) : directionOf (directionByte d) = .ok d := by cases d <;> rfl

theorem boundedOf_boundedByte {n : Nat} (h : n ≤ 256) (r : Reject) (d : Fin n) :
    boundedOf n r (boundedByte d) = .ok d := by
  have hd := d.isLt
  have hv : (BitVec.ofNat 8 d.val).toNat = d.val := by simp; omega
  simp [boundedOf, boundedByte, hv]

@[simp] theorem digitOf_boundedByte (d : Digit) : digitOf (boundedByte d) = .ok d := boundedOf_boundedByte (by decide) _ d
@[simp] theorem placeOf_boundedByte (d : Place) : placeOf (boundedByte d) = .ok d := boundedOf_boundedByte (by decide) _ d
@[simp] theorem minutesOf_boundedByte (d : TwoDigits) : minutesOf (boundedByte d) = .ok d :=
  boundedOf_boundedByte (by decide) _ d

theorem secondsOf_boundedByte {d : TwoDigits} (h : d.val ≤ 59) : secondsOf (boundedByte d) = .ok d := by
  have hv : (BitVec.ofNat 8 d.val).toNat = d.val := by simp; omega
  simp [secondsOf, boundedByte, hv, h]

theorem channelOf_ok {b : Byte} {ch : Channel} (h : channelOf b = .ok ch) : channelByte ch = b := by
  unfold channelOf at h
  split at h
  · cases h; simp_all [channelByte]
  · split at h
    · cases h; simp_all [channelByte]
    · cases h

theorem bitOf_ok {b : Byte} {v : Bool} (h : bitOf b = .ok v) : bitByte v = b := by
  unfold bitOf at h
  split at h
  · cases h; simp_all [bitByte]
  · split at h
    · cases h; simp_all [bitByte]
    · cases h

theorem directionOf_ok {b : Byte} {d : Direction} (h : directionOf b = .ok d) : directionByte d = b := by
  unfold directionOf at h
  split at h
  · cases h; simp_all [directionByte]
  · split at h
    · cases h; simp_all [directionByte]
    · cases h

theorem boundedOf_ok {n : Nat} {r : Reject} {b : Byte} {d : Fin n} (h : boundedOf n r b = .ok d) : boundedByte d = b := by
  unfold boundedOf at h
  split at h
  · cases h; simp [boundedByte]
  · cases h

theorem secondsOf_ok {b : Byte} {d : TwoDigits} (h : secondsOf b = .ok d) : boundedByte d = b ∧ d.val ≤ 59 := by
  unfold secondsOf at h
  split at h
  · rename_i hb; cases h; simpa [boundedByte] using hb
  · cases h

theorem unused_ok {bs : List Byte} {u : Unit} (h : unused bs = .ok u) : ∀ b ∈ bs, b = 0#8 := by
  unfold unused at h
  split at h
  · rename_i hall; simpa using hall
  · cases h

/-- A time is read back from its bytes, when it fits them. -/
theorem timeOf_timeBytes (n t : Nat) (h : t < 256 ^ n) : timeOf (timeBytes n t) = t := by
  induction n generalizing t with
  | zero => simp [timeBytes, timeOf] at *; omega
  | succ n ih =>
    have hd : t / 256 < 256 ^ n := Nat.div_lt_of_lt_mul (by rwa [Nat.mul_comm, ← Nat.pow_succ])
    simp only [timeBytes, timeOf, ih _ hd, BitVec.toNat_ofNat]
    omega

/-- The bytes that are read are the time's. -/
theorem timeBytes_timeOf (bs : List Byte) : timeBytes bs.length (timeOf bs) = bs := by
  induction bs with
  | nil => rfl
  | cons b bs ih =>
    have hb : b.toNat < 256 := b.isLt
    have hd : (b.toNat + 256 * timeOf bs) / 256 = timeOf bs := by omega
    have hm : BitVec.ofNat 8 (b.toNat + 256 * timeOf bs) = b := by
      apply BitVec.eq_of_toNat_eq
      rw [BitVec.toNat_ofNat]
      omega
    simp only [List.length_cons, timeBytes, timeOf, hd, hm, ih]

theorem timeOf_lt (bs : List Byte) : timeOf bs < 256 ^ bs.length := by
  induction bs with
  | nil => simp [timeOf]
  | cons b bs ih =>
    have hb : b.toNat < 256 := b.isLt
    simp only [timeOf, List.length_cons, Nat.pow_succ]
    omega

theorem timeFits_iff (t : Nat) : timeFits t = true ↔ t < 256 ^ 8 := by
  simp [timeFits, lineTimeBits]

/-- A list of a time's bytes, written out. -/
theorem timeBytes_eight (t : Nat) : ∃ b c d e f g h i, timeBytes 8 t = [b, c, d, e, f, g, h, i] :=
  ⟨_, _, _, _, _, _, _, _, rfl⟩

theorem dataWord_getLsbD (c : Bool) (seg : Segments) (i : Nat) :
    (dataWord c seg).getLsbD i = if i < 7 then seg.getLsbD i else (BitVec.ofBool c).getLsbD (i - 7) :=
  BitVec.getLsbD_append

@[simp] theorem dataWord_bit7 (c : Bool) (seg : Segments) : (dataWord c seg).getLsbD 7 = c := by
  simp only [dataWord_getLsbD]
  cases c <;> rfl

@[simp] theorem dataWord_segments (c : Bool) (seg : Segments) : (dataWord c seg).extractLsb' 0 7 = seg := by
  apply BitVec.eq_of_getLsbD_eq
  intro i hi
  simp only [BitVec.getLsbD_extractLsb', dataWord_getLsbD]
  simp [hi]

theorem dataWord_of_byte (w : Byte) : dataWord (w.getLsbD 7) (w.extractLsb' 0 7) = w := by
  apply BitVec.eq_of_getLsbD_eq
  intro i hi
  simp only [dataWord_getLsbD, BitVec.getLsbD_extractLsb']
  rcases Nat.lt_or_ge i 7 with h | h
  · simp [h]
  · have : i = 7 := by omega
    subst this
    cases w.getLsbD 7 <;> rfl

@[simp] theorem ctrlWord_kind (br : BitVec 3) : (ctrlWord br).extractLsb' 3 5 = 0b10001#5 := by revert br; decide

@[simp] theorem ctrlWord_brightness (br : BitVec 3) : (ctrlWord br).extractLsb' 0 3 = br := by revert br; decide

theorem ctrlWord_of_byte {w : Byte} (h : w.extractLsb' 3 5 = 0b10001#5) : ctrlWord (w.extractLsb' 0 3) = w := by
  rw [ctrlWord, ← h]
  apply BitVec.eq_of_getLsbD_eq
  intro i hi
  rw [BitVec.getLsbD_append]
  simp only [BitVec.getLsbD_extractLsb']
  rcases Nat.lt_or_ge i 3 with h3 | h3
  · simp [h3]
  · simp [show ¬i < 3 by omega, show i - 3 < 5 by omega, show 3 + (i - 3) = i by omega]

/-- Every line of the encoder has eleven bytes. -/
theorem encode_length (i : Instr) : (encode i).length = 11 := by cases i <;> rfl

end Sys2Proof
end

