-- ==== Sys2Proof/Laws/State.lean ====
section
/-!
SUPPORT. The small lemmas of the state's updates: one for each field of each shared operation, and the two-channel records.
-/
namespace Sys2Proof

@[simp] theorem PerChannel.get_set_self {α : Type} (x : PerChannel α) (ch : Channel) (v : α) :
    (x.set ch v).get ch = v := by cases ch <;> rfl

@[simp] theorem PerChannel.get_set_other {α : Type} (x : PerChannel α) (ch : Channel) (v : α) :
    (x.set ch v).get ch.other = x.get ch.other := by cases ch <;> rfl

theorem PerChannel.get_set_of_ne {α : Type} (x : PerChannel α) {ch k : Channel} (v : α) (h : ch ≠ k) :
    (x.set ch v).get k = x.get k := by cases ch <;> cases k <;> first | rfl | exact absurd rfl h

@[simp] theorem PerChannel.set_get_self {α : Type} (x : PerChannel α) (ch : Channel) : x.set ch (x.get ch) = x := by
  cases ch <;> rfl

@[simp] theorem PerChannel.set_set {α : Type} (x : PerChannel α) (ch : Channel) (v w : α) :
    (x.set ch v).set ch w = x.set ch w := by cases ch <;> rfl

theorem PerChannel.ext_get {α : Type} {x y : PerChannel α} (h : ∀ ch, x.get ch = y.get ch) : x = y := by
  obtain ⟨xa, xb⟩ := x
  obtain ⟨ya, yb⟩ := y
  have ha : xa = ya := h .A
  have hb : xb = yb := h .B
  rw [ha, hb]

@[simp] theorem Channel.other_ne (ch : Channel) : ch.other ≠ ch := by cases ch <;> decide

@[simp] theorem Channel.other_other (ch : Channel) : ch.other.other = ch := by cases ch <;> rfl

namespace Machine

section drive
variable (es : List PinEvent) (s : State)

@[simp] theorem drive_cfg : (drive es s).cfg = s.cfg := rfl
@[simp] theorem drive_initialized : (drive es s).initialized = s.initialized := rfl
@[simp] theorem drive_beam : (drive es s).beam = s.beam := rfl
@[simp] theorem drive_lap : (drive es s).lap = s.lap := rfl
@[simp] theorem drive_pins : (drive es s).pins = applyEvents es s.pins := rfl
@[simp] theorem drive_trace : (drive es s).trace = s.trace ++ es := rfl
@[simp] theorem drive_result : (drive es s).result = s.result := rfl
@[simp] theorem drive_pending : (drive es s).pending = s.pending := rfl
@[simp] theorem drive_polls : (drive es s).polls = s.polls := rfl
@[simp] theorem drive_powerUps : (drive es s).powerUps = s.powerUps := rfl

end drive

section hardwareReset
variable (s : State)

@[simp] theorem hardwareReset_cfg : (hardwareReset s).cfg = s.cfg := rfl
@[simp] theorem hardwareReset_initialized : (hardwareReset s).initialized = false := rfl
@[simp] theorem hardwareReset_trace : (hardwareReset s).trace = [] := rfl
@[simp] theorem hardwareReset_result : (hardwareReset s).result = .none := rfl
@[simp] theorem hardwareReset_pending : (hardwareReset s).pending = s.pending := rfl
@[simp] theorem hardwareReset_polls : (hardwareReset s).polls = s.polls := rfl
@[simp] theorem hardwareReset_powerUps : (hardwareReset s).powerUps = s.powerUps + 1 := rfl

end hardwareReset

section resetWith
variable (c : Cfg)

@[simp] theorem resetWith_cfg : (State.resetWith c).cfg = c := rfl
@[simp] theorem resetWith_initialized : (State.resetWith c).initialized = false := rfl
@[simp] theorem resetWith_trace : (State.resetWith c).trace = [] := rfl
@[simp] theorem resetWith_pending : (State.resetWith c).pending = [] := rfl

end resetWith

@[simp] theorem placeLine_pending (bytes : List Byte) (s : State) :
    (placeLine bytes s).pending = .line bytes :: s.pending := rfl

@[simp] theorem finish_eq (r : Result) (s : State) : finish r s = .next { s with result := r } := rfl

/-- What an answer of finish says. -/
theorem finish_next {r : Result} {s t : State} (h : finish r s = .next t) : t = { s with result := r } := by
  simpa using h.symm

end Machine
end Sys2Proof
end

