-- ==== Sys2Proof/Laws/Driver.lean ====
section
/-!
SUPPORT. What pin events do: events in sequence, on the channel they name and on the other one, and the exit levels of each
driver operation.
-/
namespace Sys2Proof.Machine

theorem applyEvents_append (es fs : List PinEvent) (p : PerChannel PinRegs) :
    applyEvents (es ++ fs) p = applyEvents fs (applyEvents es p) := by
  induction es generalizing p with
  | nil => rfl
  | cons e es ih => exact ih _

@[simp] theorem drive_nil (s : State) : drive [] s = s := by simp [drive, applyEvents]

theorem drive_append (es fs : List PinEvent) (s : State) : drive (es ++ fs) s = drive fs (drive es s) := by
  simp [drive, applyEvents_append]

/-- START ends with clock 1, latch 0; the direction is kept. -/
theorem applyEvents_start (c : Cfg) (ch : Channel) (p : PerChannel PinRegs) :
    applyEvents (startEvents c ch) p = p.set ch { p.get ch with clk := true, dioOut := false } := by
  cases ch <;> rfl

/-- STOP ends with clock 1, latch 1; the direction is kept. -/
theorem applyEvents_stop (c : Cfg) (ch : Channel) (p : PerChannel PinRegs) :
    applyEvents (stopEvents c ch) p = p.set ch { p.get ch with clk := true, dioOut := true } := by
  cases ch <;> rfl

/-- A bit cell ends with clock 1 and the bit in the latch. -/
theorem applyEvents_bitCell (c : Cfg) (ch : Channel) (v : Bool) (p : PerChannel PinRegs) :
    applyEvents (bitCellEvents c ch v) p = p.set ch { p.get ch with clk := true, dioOut := v } := by
  cases ch <;> rfl

/-- The acknowledge window ends with clock 0, driven; the latch is kept. -/
theorem applyEvents_ackWindow (c : Cfg) (ch : Channel) (p : PerChannel PinRegs) :
    applyEvents (ackWindowEvents c ch) p = p.set ch { p.get ch with clk := false, dioDir := .output } := by
  unfold ackWindowEvents ninthClockEvents
  cases ch <;> cases c.ackNinthClock <;> rfl

/-- WRITE_BYTE ends with clock 0, latch bit 7, driven (41_serial_display_driver.md R119). -/
theorem applyEvents_writeByte (c : Cfg) (ch : Channel) (b : Byte) (p : PerChannel PinRegs) :
    applyEvents (writeByteEvents c ch b) p = p.set ch { clk := false, dioOut := b.getLsbD 7, dioDir := .output } := by
  simp [writeByteEvents, bitsOfByte, applyEvents_append, applyEvents_bitCell, applyEvents_ackWindow]

/-- A session ends with an idle bus if the data wire was driven before it or a byte is in it. -/
theorem applyEvents_session (c : Cfg) (ch : Channel) (bs : List Byte) (p : PerChannel PinRegs)
    (h : (p.get ch).dioDir = .output) :
    applyEvents (sessionEvents c ch bs) p = p.set ch { clk := true, dioOut := true, dioDir := .output } := by
  have bytes : ∀ (bs : List Byte) (q : PerChannel PinRegs), (q.get ch).dioDir = .output →
      ∃ v w, applyEvents (bs.flatMap (writeByteEvents c ch)) q = q.set ch { clk := v, dioOut := w, dioDir := .output } := by
    intro bs
    induction bs with
    | nil =>
      intro q hq
      exact ⟨(q.get ch).clk, (q.get ch).dioOut, by rw [← hq]; exact (PerChannel.set_get_self q ch).symm⟩
    | cons b bs ih =>
      intro q hq
      obtain ⟨v, w, hvw⟩ := ih (q.set ch { clk := false, dioOut := b.getLsbD 7, dioDir := .output }) (by simp)
      exact ⟨v, w, by rw [List.flatMap_cons, applyEvents_append, applyEvents_writeByte, hvw, PerChannel.set_set]⟩
  obtain ⟨v, w, hvw⟩ := bytes bs (p.set ch { clk := true, dioOut := false, dioDir := .output }) (by simp)
  simp [sessionEvents, applyEvents_append, applyEvents_start, applyEvents_stop, h, hvw]

/-- WRITE_FRAME leaves an idle bus idle (41_serial_display_driver.md R122). -/
theorem applyEvents_writeFrame (c : Cfg) (ch : Channel) (f : DigitFrame) (p : PerChannel PinRegs)
    (h : (p.get ch).dioDir = .output) :
    applyEvents (writeFrameEvents c ch f) p = p.set ch { clk := true, dioOut := true, dioDir := .output } := by
  unfold writeFrameEvents frameSessions
  cases c.brightness.get ch <;> simp [applyEvents_append, applyEvents_session, h]

theorem delaySum_append (es fs : List PinEvent) : delaySum (es ++ fs) = delaySum es + delaySum fs := by
  induction es with
  | nil => simp [delaySum]
  | cons e es ih => cases e <;> simp [delaySum, ih, Nat.add_assoc]

/-- WRITE_BYTE's events (41_serial_display_driver.md R125). -/
theorem length_writeByteEvents (c : Cfg) (ch : Channel) (b : Byte) :
    (writeByteEvents c ch b).length = 44 + 3 * c.ackNinthClock.toNat := by
  unfold writeByteEvents ackWindowEvents ninthClockEvents
  cases c.ackNinthClock <;> simp [bitsOfByte, bitCellEvents]

/-- WRITE_BYTE's delays (41_serial_display_driver.md R125). -/
theorem delaySum_writeByteEvents (c : Cfg) (ch : Channel) (b : Byte) :
    delaySum (writeByteEvents c ch b) = (16 + c.ackNinthClock.toNat) * c.tHold.get ch + c.ackWindowUs := by
  unfold writeByteEvents ackWindowEvents ninthClockEvents
  cases c.ackNinthClock <;> simp [bitsOfByte, bitCellEvents, delaySum] <;> ring

/-- A session's events (41_serial_display_driver.md R125). -/
theorem length_sessionEvents (c : Cfg) (ch : Channel) (bs : List Byte) :
    (sessionEvents c ch bs).length = 13 + bs.length * (44 + 3 * c.ackNinthClock.toNat) := by
  have hb : (bs.flatMap (writeByteEvents c ch)).length = bs.length * (44 + 3 * c.ackNinthClock.toNat) := by
    induction bs with
    | nil => simp
    | cons b bs ih => rw [List.flatMap_cons, List.length_append, ih, length_writeByteEvents, List.length_cons]; ring
  simp only [sessionEvents, List.length_append, hb, startEvents, stopEvents, List.length_cons, List.length_nil]
  omega

/-- A session's delays (41_serial_display_driver.md R125). -/
theorem delaySum_sessionEvents (c : Cfg) (ch : Channel) (bs : List Byte) :
    delaySum (sessionEvents c ch bs) =
      6 * c.tHold.get ch + bs.length * ((16 + c.ackNinthClock.toNat) * c.tHold.get ch + c.ackWindowUs) := by
  have hb : delaySum (bs.flatMap (writeByteEvents c ch)) =
      bs.length * ((16 + c.ackNinthClock.toNat) * c.tHold.get ch + c.ackWindowUs) := by
    induction bs with
    | nil => simp [delaySum]
    | cons b bs ih =>
      rw [List.flatMap_cons, delaySum_append, ih, delaySum_writeByteEvents, List.length_cons]
      ring
  simp only [sessionEvents, delaySum_append, hb, startEvents, stopEvents, delaySum]
  ring

theorem channelOf_startEvents (c : Cfg) (ch : Channel) : ∀ e ∈ startEvents c ch, channelOfEvent e = ch := by
  simp [startEvents, channelOfEvent]

theorem channelOf_stopEvents (c : Cfg) (ch : Channel) : ∀ e ∈ stopEvents c ch, channelOfEvent e = ch := by
  simp [stopEvents, channelOfEvent]

theorem channelOf_ackWindowEvents (c : Cfg) (ch : Channel) : ∀ e ∈ ackWindowEvents c ch, channelOfEvent e = ch := by
  intro e he
  unfold ackWindowEvents ninthClockEvents at he
  cases h : c.ackNinthClock <;> simp [h] at he <;> rcases he with rfl | rfl | rfl | rfl | rfl | rfl | rfl <;> rfl

theorem channelOf_writeByteEvents (c : Cfg) (ch : Channel) (b : Byte) :
    ∀ e ∈ writeByteEvents c ch b, channelOfEvent e = ch := by
  intro e he
  rcases List.mem_append.mp he with he | he
  · obtain ⟨v, _, hv⟩ := List.mem_flatMap.mp he
    simp [bitCellEvents] at hv
    rcases hv with rfl | rfl | rfl | rfl | rfl <;> rfl
  · exact channelOf_ackWindowEvents c ch e he

theorem channelOf_sessionEvents (c : Cfg) (ch : Channel) (bs : List Byte) :
    ∀ e ∈ sessionEvents c ch bs, channelOfEvent e = ch := by
  intro e he
  simp only [sessionEvents, List.mem_append, List.mem_flatMap] at he
  rcases he with (he | ⟨b, _, he⟩) | he
  · exact channelOf_startEvents c ch e he
  · exact channelOf_writeByteEvents c ch b e he
  · exact channelOf_stopEvents c ch e he

theorem channelOf_writeFrameEvents (c : Cfg) (ch : Channel) (f : DigitFrame) :
    ∀ e ∈ writeFrameEvents c ch f, channelOfEvent e = ch := by
  intro e he
  obtain ⟨bs, _, he⟩ := List.mem_flatMap.mp he
  exact channelOf_sessionEvents c ch bs e he

end Sys2Proof.Machine
end

