-- ==== Sys2Proof/Laws/LapTimer.lean ====
section
/-!
SUPPORT. What one update of the lap timer can do, and successive updates.
-/
namespace Sys2Proof.Machine

/-- The tick test (43_lap_timer.md R170). -/
theorem tickDue_iff (c : Cfg) (now r : Nat) : tickDue c now r = true ↔ c.tickPeriodUs ≤ diffW c now r :=
  decide_eq_true_iff

/-- Everything an update can do: exactly one arm, with the condition that selects it (43_lap_timer.md R161). -/
theorem lapUpdate_cases (c : Cfg) (fall : Bool) (now : Nat) (l : LapState) :
    (fall = true ∧ l.running = false ∧ lapUpdate c fall now l = lapStart c now l) ∨
    (fall = true ∧ l.running = true ∧ lapUpdate c fall now l = lapComplete c now l) ∨
    (fall = false ∧ l.running = true ∧ tickDue c now l.tickRef = true ∧ lapUpdate c fall now l = lapTick c l) ∨
    (fall = false ∧ (l.running = true → tickDue c now l.tickRef = false) ∧ lapUpdate c fall now l = l) := by
  unfold lapUpdate lapHold
  cases fall <;> cases l.running <;> cases tickDue c now l.tickRef <;> simp

/-- A tick's fields (43_lap_timer.md R165). -/
theorem lapTick_fields (c : Cfg) (l : LapState) :
    (lapTick c l).running = l.running ∧ (lapTick c l).lastMin = l.lastMin ∧ (lapTick c l).lastSec = l.lastSec ∧
      (lapTick c l).valid = l.valid ∧ (lapTick c l).count = l.count ∧
      (lapTick c l).tickRef = addW c l.tickRef c.tickPeriodUs := by
  unfold lapTick advanceSecond
  split
  · split <;> exact ⟨rfl, rfl, rfl, rfl, rfl, rfl⟩
  · exact ⟨rfl, rfl, rfl, rfl, rfl, rfl⟩

/-- A tick of an elapsed time in range: the cascade (43_lap_timer.md R165). -/
theorem lapTick_elapsed (c : Cfg) (l : LapState) (h : l.ElapsedInRange c) :
    (l.sec.val = c.secMax → (lapTick c l).sec.val = 0 ∧
      (lapTick c l).min.val = if l.min.val = c.minMax then 0 else l.min.val + 1) ∧
    (l.sec.val ≠ c.secMax → (lapTick c l).sec.val = l.sec.val + 1 ∧ (lapTick c l).min = l.min) := by
  obtain ⟨hs, hm⟩ := h
  obtain ⟨_, _, hm9, hs9, _⟩ := c.bounds
  simp only [lapTick, advanceSecond]
  refine ⟨fun e => ?_, fun e => ?_⟩
  · rw [if_pos e]
    split
    · exact ⟨rfl, rfl⟩
    · refine ⟨rfl, ?_⟩
      simp only [Fin.val_add, Fin.val_one]
      omega
  · rw [if_neg e]
    refine ⟨?_, rfl⟩
    simp only [Fin.val_add, Fin.val_one]
    omega

/-- A tick keeps the elapsed time in range (10_state.md R43(a)). -/
theorem lapTick_inRange (c : Cfg) (l : LapState) (h : l.ElapsedInRange c) : (lapTick c l).ElapsedInRange c := by
  obtain ⟨h1, h2⟩ := lapTick_elapsed c l h
  obtain ⟨hs, hm⟩ := h
  unfold LapState.ElapsedInRange
  by_cases e : l.sec.val = c.secMax
  · obtain ⟨a, b⟩ := h1 e
    rw [a, b]
    split <;> omega
  · obtain ⟨a, b⟩ := h2 e
    rw [a, b]
    omega

/-- A tick adds one second, modulo the range (43_lap_timer.md R167). -/
theorem elapsed_lapTick (c : Cfg) (l : LapState) (h : l.ElapsedInRange c) :
    elapsedSeconds c (lapTick c l) = (elapsedSeconds c l + 1) % secondsRange c := by
  obtain ⟨h1, h2⟩ := lapTick_elapsed c l h
  obtain ⟨hs, hm⟩ := h
  unfold elapsedSeconds secondsRange
  have hle : (c.secMax + 1) * l.min.val + (c.secMax + 1) ≤ (c.minMax + 1) * (c.secMax + 1) := by
    rw [← Nat.mul_succ, Nat.mul_comm (c.minMax + 1)]
    exact Nat.mul_le_mul_left _ (Nat.succ_le_succ hm)
  by_cases e : l.sec.val = c.secMax
  · obtain ⟨a, b⟩ := h1 e
    rw [a, b, e]
    split
    · rename_i em
      rw [em, show (c.secMax + 1) * c.minMax + c.secMax + 1 = (c.minMax + 1) * (c.secMax + 1) by ring, Nat.mod_self,
        Nat.mul_zero]
    · have hlt : l.min.val + 1 ≤ c.minMax := by omega
      have : (c.secMax + 1) * (l.min.val + 1) < (c.minMax + 1) * (c.secMax + 1) := by
        rw [Nat.mul_comm (c.minMax + 1)]
        exact Nat.mul_lt_mul_of_pos_left (by omega) (by omega)
      rw [show (c.secMax + 1) * l.min.val + c.secMax + 1 = (c.secMax + 1) * (l.min.val + 1) by ring,
        Nat.mod_eq_of_lt this, Nat.add_zero]
  · obtain ⟨a, b⟩ := h2 e
    rw [a, b, Nat.mod_eq_of_lt (by omega), Nat.add_assoc]

/-- Without an event an update leaves the last lap, its valid bit and the count alone (43_lap_timer.md R168). -/
theorem lapUpdate_keeps_lastLap (c : Cfg) (now : Nat) (l : LapState) :
    (lapUpdate c false now l).lastMin = l.lastMin ∧ (lapUpdate c false now l).lastSec = l.lastSec ∧
      (lapUpdate c false now l).valid = l.valid ∧ (lapUpdate c false now l).count = l.count ∧
      (lapUpdate c false now l).running = l.running := by
  rcases lapUpdate_cases c false now l with ⟨h, _⟩ | ⟨h, _⟩ | ⟨_, _, _, h⟩ | ⟨_, _, h⟩
  · simp at h
  · simp at h
  · obtain ⟨h1, h2, h3, h4, h5, _⟩ := lapTick_fields c l
    rw [h]
    exact ⟨h2, h3, h4, h5, h1⟩
  · rw [h]
    exact ⟨rfl, rfl, rfl, rfl, rfl⟩

theorem updateAll_append (c : Cfg) (ps qs : List Sample) (l : LapState) :
    updateAll c (ps ++ qs) l = updateAll c qs (updateAll c ps l) := by
  induction ps generalizing l with
  | nil => rfl
  | cons x ps ih => exact ih _

/-- Of an idle timer no update reads the reference: the updates of two that differ in it alone differ in it alone, and not even
there once one runs. -/
theorem lapUpdate_idle_ref (c : Cfg) (fall : Bool) (now : Nat) (l : LapState) (r : Nat)
    (h : l.running = false) :
    lapUpdate c fall now { l with tickRef := r } = lapUpdate c fall now l ∨
      lapUpdate c fall now { l with tickRef := r } = { l with tickRef := r } ∧ lapUpdate c fall now l = l := by
  unfold lapUpdate lapHold lapStart
  cases fall <;> simp [h]

theorem lapComplete_width (c : Cfg) (now : Nat) (l : LapState)
    (h : l.tickRef < 2 ^ c.tsWidth ∧ l.count < 2 ^ c.lapCountWidth) :
    (lapComplete c now l).tickRef < 2 ^ c.tsWidth ∧ (lapComplete c now l).count < 2 ^ c.lapCountWidth := by
  unfold lapComplete
  split
  · exact ⟨modW_lt c now, Nat.mod_lt _ (Nat.two_pow_pos _)⟩
  · exact ⟨h.1, Nat.mod_lt _ (Nat.two_pow_pos _)⟩

theorem lapComplete_inRange (c : Cfg) (now : Nat) (l : LapState) (h : l.ElapsedInRange c) :
    (lapComplete c now l).ElapsedInRange c ∧ (lapComplete c now l).lastSec.val ≤ c.secMax ∧
      (lapComplete c now l).lastMin.val ≤ c.minMax := by
  unfold lapComplete
  split
  · exact ⟨⟨Nat.zero_le _, Nat.zero_le _⟩, h⟩
  · exact ⟨h, h⟩

/-- An update keeps the timer's registers in their widths. -/
theorem lapUpdate_width (c : Cfg) (fall : Bool) (now : Nat) (l : LapState)
    (h : l.tickRef < 2 ^ c.tsWidth ∧ l.count < 2 ^ c.lapCountWidth) :
    (lapUpdate c fall now l).tickRef < 2 ^ c.tsWidth ∧ (lapUpdate c fall now l).count < 2 ^ c.lapCountWidth := by
  rcases lapUpdate_cases c fall now l with ⟨_, _, e⟩ | ⟨_, _, e⟩ | ⟨_, _, _, e⟩ | ⟨_, _, e⟩ <;> rw [e]
  · exact ⟨modW_lt c now, h.2⟩
  · exact lapComplete_width c now l h
  · obtain ⟨_, _, _, _, h5, h6⟩ := lapTick_fields c l
    rw [h5, h6]
    exact ⟨addW_lt c _ _, h.2⟩
  · exact h

/-- An update keeps the elapsed time and the last lap in range (10_state.md R43(a)). -/
theorem lapUpdate_inRange (c : Cfg) (fall : Bool) (now : Nat) (l : LapState) (h : l.ElapsedInRange c)
    (hl : l.lastSec.val ≤ c.secMax ∧ l.lastMin.val ≤ c.minMax) :
    (lapUpdate c fall now l).ElapsedInRange c ∧ (lapUpdate c fall now l).lastSec.val ≤ c.secMax ∧
      (lapUpdate c fall now l).lastMin.val ≤ c.minMax := by
  rcases lapUpdate_cases c fall now l with ⟨_, _, e⟩ | ⟨_, _, e⟩ | ⟨_, _, _, e⟩ | ⟨_, _, e⟩ <;> rw [e]
  · exact ⟨⟨Nat.zero_le _, Nat.zero_le _⟩, hl⟩
  · exact lapComplete_inRange c now l h
  · obtain ⟨_, h2, h3, _⟩ := lapTick_fields c l
    rw [h2, h3]
    exact ⟨lapTick_inRange c l h, hl⟩
  · exact ⟨h, hl⟩

end Sys2Proof.Machine
end

