-- ==== Sys2Proof/Laws/PerInstr.lean ====
section
/-!
SUPPORT. Statements made one operation at a time: the line of every operation has eleven bytes (log 3).
-/
namespace Sys2Proof.Laws.LineLength

/-- The line of the operation has eleven bytes. -/
def Statement (i : Instr) : Prop := (Sys2Proof.encode i).length = 11

theorem clkw (a : Channel) (b : Bool) : Statement (.clkw a b) := rfl
theorem diow (a : Channel) (b : Bool) : Statement (.diow a b) := rfl
theorem diod (a : Channel) (b : Direction) : Statement (.diod a b) := rfl
theorem delay (a : Channel) (b : Nat) : Statement (.delay a b) := rfl
theorem start (a : Channel) : Statement (.start a) := rfl
theorem stop (a : Channel) : Statement (.stop a) := rfl
theorem writeByte (a : Channel) (b : Byte) : Statement (.writeByte a b) := rfl
theorem ackWindow (a : Channel) : Statement (.ackWindow a) := rfl
theorem writeFrame (a : Channel) (b : DigitFrame) : Statement (.writeFrame a b) := rfl
theorem encode (a : Digit) : Statement (.encode a) := rfl
theorem segbyte (a : Digit) (b : Place) (c : Bool) : Statement (.segbyte a b c) := rfl
theorem debouncePoll (a : Bool) (b : Nat) : Statement (.debouncePoll a b) := rfl
theorem lapUpdate (a : Bool) (b : Nat) : Statement (.lapUpdate a b) := rfl
theorem lapStart (a : Nat) : Statement (.lapStart a) := rfl
theorem lapComplete (a : Nat) : Statement (.lapComplete a) := rfl
theorem lapTick : Statement (.lapTick) := rfl
theorem lapHold : Statement (.lapHold) := rfl
theorem formatMmss (a : TwoDigits) (b : TwoDigits) (c : Bool) : Statement (.formatMmss a b c) := rfl
theorem render : Statement (.render) := rfl
theorem init : Statement (.init) := rfl
theorem step (a : Bool) (b : Nat) : Statement (.step a b) := rfl
theorem statusRead : Statement (.statusRead) := rfl
theorem cmdData (a : Channel) : Statement (.cmdData a) := rfl
theorem cmdAddr (a : Channel) : Statement (.cmdAddr a) := rfl
theorem cmdCtrl (a : Channel) (b : BitVec 3) : Statement (.cmdCtrl a b) := rfl
theorem data (a : Channel) (b : Place) (c : Bool) (d : Segments) : Statement (.data a b c d) := rfl

end Sys2Proof.Laws.LineLength
end

