-- ==== Sys2Proof/Laws/Receiver.lean ====
section
/-!
SUPPORT. The receiver's reading of each driver operation (20_memory.md R60 to R64): START opens a session, WRITE_BYTE adds the
byte's bits, STOP closes the session; other channels' events are not seen.
-/
namespace Sys2Proof.Machine

theorem receiveAll_append (ch : Channel) (es fs : List PinEvent) (r : Receiver) :
    receiveAll ch (es ++ fs) r = receiveAll ch fs (receiveAll ch es r) := by
  induction es generalizing r with
  | nil => rfl
  | cons e es ih => exact ih _

/-- Events of the other channel are not seen. -/
theorem receiveAll_of_other {ch : Channel} {es : List PinEvent} (h : ∀ e ∈ es, channelOfEvent e ≠ ch) (r : Receiver) :
    receiveAll ch es r = r := by
  induction es generalizing r with
  | nil => rfl
  | cons e es ih =>
    simp only [receiveAll, if_neg (h e List.mem_cons_self)]
    exact ih (fun x hx => h x (List.mem_cons_of_mem e hx)) r

/-- START from an idle bus opens a session (41_serial_display_driver.md R114). -/
theorem receiveAll_start (c : Cfg) (ch : Channel) (r : Receiver)
    (hp : r.pin = { clk := true, dioOut := true, dioDir := .output }) (ho : r.isOpen = false) (he : r.edge = none) :
    receiveAll ch (startEvents c ch) r =
      { r with
        pin := { clk := true, dioOut := false, dioDir := .output }, isOpen := true, bits := [], starts := r.starts + 1 } := by
  obtain ⟨pin, isOpen, bits, edge, starts, stops, closed⟩ := r
  simp only at hp ho he
  subst hp ho he
  simp [startEvents, receiveAll, receive, channelOfEvent, startMarker, stopMarker, clockRises, clockFalls, pinAfter]

/-- A bit cell in an open session, the wire driven: the bit before it is taken, its own waits at the rising edge
(20_memory.md R62). -/
theorem receiveAll_bitCell (c : Cfg) (ch : Channel) (v : Bool) (r : Receiver) (hd : r.pin.dioDir = .output)
    (ho : r.isOpen = true) (hc : r.pin.clk = false → r.edge = none) :
    receiveAll ch (bitCellEvents c ch v) r =
      { r with
        pin := { clk := true, dioOut := v, dioDir := .output }, bits := r.bits ++ r.edge.toList, edge := some v } := by
  obtain ⟨⟨clk, dioOut, dioDir⟩, isOpen, bits, edge, starts, stops, closed⟩ := r
  simp only at hd ho hc
  subst hd ho
  cases clk
  · have he := hc rfl
    subst he
    simp [bitCellEvents, receiveAll, receive, channelOfEvent, startMarker, stopMarker, clockRises, clockFalls, pinAfter]
  · simp [bitCellEvents, receiveAll, receive, channelOfEvent, startMarker, stopMarker, clockRises, clockFalls, pinAfter]

/-- The acknowledge window takes the last bit and carries none of its own, with or without the ninth clock
(20_memory.md R63). -/
theorem receiveAll_ackWindow (c : Cfg) (ch : Channel) (v : Bool) (r : Receiver)
    (hp : r.pin = { clk := true, dioOut := v, dioDir := .output }) :
    receiveAll ch (ackWindowEvents c ch) r =
      { r with
        pin := { clk := false, dioOut := v, dioDir := .output }, bits := r.bits ++ r.edge.toList, edge := none } := by
  obtain ⟨pin, isOpen, bits, edge, starts, stops, closed⟩ := r
  simp only at hp
  subst hp
  unfold ackWindowEvents ninthClockEvents
  cases c.ackNinthClock <;>
    simp [receiveAll, receive, channelOfEvent, startMarker, stopMarker, clockRises, clockFalls, pinAfter]

/-- WRITE_BYTE in an open session adds the byte's bits, bit 0 first (20_memory.md R55). -/
theorem receiveAll_writeByte (c : Cfg) (ch : Channel) (b : Byte) (r : Receiver) (hd : r.pin.dioDir = .output)
    (ho : r.isOpen = true) (he : r.edge = none) :
    receiveAll ch (writeByteEvents c ch b) r =
      { r with
        pin := { clk := false, dioOut := b.getLsbD 7, dioDir := .output }, bits := r.bits ++ bitsOfByte b, edge := none } := by
  rw [writeByteEvents, receiveAll_append]
  simp only [bitsOfByte, List.flatMap_cons, List.flatMap_nil, receiveAll_append]
  rw [receiveAll_bitCell c ch _ r hd ho (fun _ => he)]
  simp only [receiveAll_bitCell, ho, he, Option.toList, List.append_nil, List.append_assoc, reduceCtorEq,
    false_implies]
  rw [receiveAll]
  rw [receiveAll_ackWindow c ch (b.getLsbD 7) _ rfl]
  simp

/-- STOP with no bit waiting closes the session (41_serial_display_driver.md R116). -/
theorem receiveAll_stop (c : Cfg) (ch : Channel) (r : Receiver) (hd : r.pin.dioDir = .output) (ho : r.isOpen = true)
    (he : r.edge = none) :
    receiveAll ch (stopEvents c ch) r =
      { r with
        pin := { clk := true, dioOut := true, dioDir := .output }, isOpen := false, bits := [], edge := none,
        stops := r.stops + 1, closed := r.closed ++ [r.bits] } := by
  obtain ⟨⟨clk, dioOut, dioDir⟩, isOpen, bits, edge, starts, stops, closed⟩ := r
  simp only at hd ho he
  subst hd ho he
  cases clk <;> simp [stopEvents, receiveAll, receive, channelOfEvent, startMarker, stopMarker, clockRises, clockFalls, pinAfter]

/-- The bytes of a session, in an open session. -/
theorem receiveAll_bytes (c : Cfg) (ch : Channel) (bs : List Byte) (r : Receiver) (hd : r.pin.dioDir = .output)
    (ho : r.isOpen = true) (he : r.edge = none) :
    ∃ k v, receiveAll ch (bs.flatMap (writeByteEvents c ch)) r =
      { r with
        pin := { clk := k, dioOut := v, dioDir := .output }, bits := r.bits ++ bs.flatMap bitsOfByte, edge := none } := by
  induction bs generalizing r with
  | nil =>
    obtain ⟨⟨clk, dioOut, dioDir⟩, isOpen, bits, edge, starts, stops, closed⟩ := r
    simp only at hd he
    subst hd he
    exact ⟨clk, dioOut, by simp [receiveAll]⟩
  | cons b bs ih =>
    rw [List.flatMap_cons, receiveAll_append, receiveAll_writeByte c ch b r hd ho he]
    obtain ⟨k, v, hv⟩ := ih
      { r with
        pin := { clk := false, dioOut := b.getLsbD 7, dioDir := .output }, bits := r.bits ++ bitsOfByte b, edge := none }
      rfl ho rfl
    exact ⟨k, v, by rw [hv]; simp⟩

theorem bytesOfBits_bitsOfByte (b : Byte) (rest : List Bool) :
    bytesOfBits (bitsOfByte b ++ rest) = b :: bytesOfBits rest := by
  have hb : byteOfBits (b.getLsbD 0) (b.getLsbD 1) (b.getLsbD 2) (b.getLsbD 3) (b.getLsbD 4) (b.getLsbD 5) (b.getLsbD 6)
      (b.getLsbD 7) = b := by revert b; decide
  simp only [bitsOfByte, List.cons_append, List.nil_append, bytesOfBits, hb]

/-- The bytes of a session are read back from its bits (20_memory.md R64). -/
theorem bytesOfBits_flatMap (bs : List Byte) : bytesOfBits (bs.flatMap bitsOfByte) = bs := by
  induction bs with
  | nil => rfl
  | cons b bs ih => rw [List.flatMap_cons, bytesOfBits_bitsOfByte, ih]

/-- A receiver between two sessions of an idle bus. -/
def betweenSessions (n : Nat) (closed : List (List Bool)) : Receiver where
  pin := { clk := true, dioOut := true, dioDir := .output }
  isOpen := false
  bits := []
  edge := none
  starts := n
  stops := n
  closed := closed

theorem receiveAll_session (c : Cfg) (ch : Channel) (bs : List Byte) (n : Nat) (closed : List (List Bool)) :
    receiveAll ch (sessionEvents c ch bs) (betweenSessions n closed) =
      betweenSessions (n + 1) (closed ++ [bs.flatMap bitsOfByte]) := by
  rw [sessionEvents, receiveAll_append, receiveAll_append, receiveAll_start c ch _ rfl rfl rfl]
  obtain ⟨k, v, hv⟩ := receiveAll_bytes c ch bs
    { betweenSessions n closed with
      pin := { clk := true, dioOut := false, dioDir := .output }, isOpen := true, bits := [], starts := n + 1 }
    rfl rfl rfl
  have hv' := hv
  simp only [betweenSessions] at hv' ⊢
  rw [hv', receiveAll_stop c ch _ rfl rfl rfl]
  simp

/-- Sessions one after another on an idle bus are read back, each with its bytes. -/
theorem receiveAll_sessions (c : Cfg) (ch : Channel) (bss : List (List Byte)) (n : Nat) (closed : List (List Bool)) :
    receiveAll ch (bss.flatMap (sessionEvents c ch)) (betweenSessions n closed) =
      betweenSessions (n + bss.length) (closed ++ bss.map (fun bs => bs.flatMap bitsOfByte)) := by
  induction bss generalizing n closed with
  | nil => simp [receiveAll]
  | cons bs bss ih =>
    rw [List.flatMap_cons, receiveAll_append, receiveAll_session c ch bs n closed, ih (n + 1) _]
    simp [Nat.add_assoc, Nat.add_comm 1]

/-- `Sessions` of sessions one after another on an idle bus are those sessions (20_memory.md R64). -/
theorem sessionsFrom_sessions (c : Cfg) (ch : Channel) (bss : List (List Byte)) :
    sessionsFrom { clk := true, dioOut := true, dioDir := .output } ch (bss.flatMap (sessionEvents c ch)) = bss := by
  have h := receiveAll_sessions c ch bss 0 []
  simp only [betweenSessions] at h
  rw [sessionsFrom, Receiver.idleAt, h]
  simp [List.map_map, Function.comp_def, bytesOfBits_flatMap]

/-- Events of the other channel hold no session of this one (20_memory.md R51). -/
theorem sessionsFrom_of_other {p : PinRegs} {ch : Channel} {es : List PinEvent} (h : ∀ e ∈ es, channelOfEvent e ≠ ch) :
    sessionsFrom p ch es = [] := by
  rw [sessionsFrom, receiveAll_of_other h]
  rfl

end Sys2Proof.Machine
end

