-- ==== Sys2Proof/Laws/Step.lean ====
section
/-!
SUPPORT. What an operation and a machine step can do, once for all operations; runs of lines.
-/
namespace Sys2Proof.Machine

/-- Every operation answers a next state. -/
theorem exec_next (i : Instr) (s : State) : ∃ t, exec i s = .next t := by
  cases i <;> exact ⟨_, rfl⟩

/-- The events of lazy initialisation. -/
def lazyEvents (s : State) : List PinEvent := if s.initialized then [] else initEvents

/-- The events of a STEP (44_render_and_step.md R188). -/
def stepEvents (raw : Bool) (now : Nat) (s : State) : List PinEvent :=
  lazyEvents s ++ renderEvents s.cfg (pollAndUpdate raw now (lazyInit s)).lap

theorem lazyInit_of_initialized {s : State} (h : s.initialized = true) : lazyInit s = s := by simp [lazyInit, h]

theorem lazyInit_of_not {s : State} (h : s.initialized = false) : lazyInit s = initState s := by simp [lazyInit, h]

@[simp] theorem lazyInit_cfg (s : State) : (lazyInit s).cfg = s.cfg := by unfold lazyInit; split <;> rfl
@[simp] theorem lazyInit_pending (s : State) : (lazyInit s).pending = s.pending := by unfold lazyInit; split <;> rfl
@[simp] theorem lazyInit_polls (s : State) : (lazyInit s).polls = s.polls := by unfold lazyInit; split <;> rfl
@[simp] theorem lazyInit_powerUps (s : State) : (lazyInit s).powerUps = s.powerUps := by unfold lazyInit; split <;> rfl
@[simp] theorem lazyInit_initialized (s : State) : (lazyInit s).initialized = true := by
  unfold lazyInit
  split
  · assumption
  · rfl

theorem lazyInit_trace (s : State) : (lazyInit s).trace = s.trace ++ lazyEvents s := by
  unfold lazyInit lazyEvents
  split <;> simp [initState]

theorem lazyInit_pins (s : State) : (lazyInit s).pins = applyEvents (lazyEvents s) s.pins := by
  unfold lazyInit lazyEvents
  split <;> rfl

@[simp] theorem stepState_cfg (raw : Bool) (now : Nat) (s : State) : (stepState raw now s).cfg = s.cfg := by
  simp [stepState, renderState, pollAndUpdate]

@[simp] theorem stepState_pending (raw : Bool) (now : Nat) (s : State) :
    (stepState raw now s).pending = s.pending := by simp [stepState, renderState, pollAndUpdate]

@[simp] theorem stepState_polls (raw : Bool) (now : Nat) (s : State) : (stepState raw now s).polls = s.polls := by
  simp [stepState, renderState, pollAndUpdate]

@[simp] theorem stepState_powerUps (raw : Bool) (now : Nat) (s : State) :
    (stepState raw now s).powerUps = s.powerUps := by simp [stepState, renderState, pollAndUpdate]

@[simp] theorem stepState_initialized (raw : Bool) (now : Nat) (s : State) :
    (stepState raw now s).initialized = true := by simp [stepState, renderState, pollAndUpdate]

theorem stepState_beam (raw : Bool) (now : Nat) (s : State) :
    (stepState raw now s).beam = (debouncePoll s.cfg raw now (lazyInit s).beam).1 := by
  simp [stepState, renderState, pollAndUpdate]

theorem stepState_lap (raw : Bool) (now : Nat) (s : State) :
    (stepState raw now s).lap =
      lapUpdate s.cfg (debouncePoll s.cfg raw now (lazyInit s).beam).2.fall now (lazyInit s).lap := by
  simp [stepState, renderState, pollAndUpdate]

theorem stepState_trace (raw : Bool) (now : Nat) (s : State) :
    (stepState raw now s).trace = s.trace ++ stepEvents raw now s := by
  simp [stepState, renderState, stepEvents, pollAndUpdate, lazyInit_trace]

theorem stepState_pins (raw : Bool) (now : Nat) (s : State) :
    (stepState raw now s).pins = applyEvents (stepEvents raw now s) s.pins := by
  simp [stepState, renderState, stepEvents, pollAndUpdate, lazyInit_pins, applyEvents_append]

/-- The answer of a STEP. -/
theorem exec_step {raw : Bool} {now : Nat} {s t : State} (h : exec (.step raw now) s = .next t) :
    t = { stepState raw now s with result := .none } := finish_next (s := stepState raw now s) h

/-- Everything a STEP does, field by field. -/
theorem exec_step_spec (raw : Bool) (now : Nat) (s : State) :
    ∃ t, exec (.step raw now) s = .next t ∧ t.cfg = s.cfg ∧ t.pending = s.pending ∧ t.initialized = true ∧
      t.beam = (debouncePoll s.cfg raw now (lazyInit s).beam).1 ∧
      t.lap = lapUpdate s.cfg (debouncePoll s.cfg raw now (lazyInit s).beam).2.fall now (lazyInit s).lap ∧
      t.trace = s.trace ++ (lazyEvents s ++ renderEvents s.cfg t.lap) ∧
      t.pins = applyEvents (lazyEvents s ++ renderEvents s.cfg t.lap) s.pins ∧ t.result = .none := by
  refine ⟨{ stepState raw now s with result := .none }, rfl, stepState_cfg raw now s, stepState_pending raw now s,
    stepState_initialized raw now s, stepState_beam raw now s, stepState_lap raw now s, ?_, ?_, rfl⟩
  · have h := stepState_trace raw now s
    rw [stepEvents] at h
    exact h
  · have h := stepState_pins raw now s
    rw [stepEvents] at h
    exact h

/-- The same for an initialised state. -/
theorem exec_step_initialized {s : State} (hi : s.initialized = true) (raw : Bool) (now : Nat) :
    ∃ t, exec (.step raw now) s = .next t ∧ t.cfg = s.cfg ∧ t.pending = s.pending ∧ t.initialized = true ∧
      t.beam = (debouncePoll s.cfg raw now s.beam).1 ∧
      t.lap = lapUpdate s.cfg (debouncePoll s.cfg raw now s.beam).2.fall now s.lap ∧
      t.trace = s.trace ++ renderEvents s.cfg t.lap ∧ t.pins = applyEvents (renderEvents s.cfg t.lap) s.pins := by
  obtain ⟨t, h1, h2, h3, h4, h5, h6, h7, h8, _⟩ := exec_step_spec raw now s
  rw [lazyInit_of_initialized hi] at h5 h6
  simp only [lazyEvents, hi, if_true, List.nil_append] at h7 h8
  exact ⟨t, h1, h2, h3, h4, h5, h6, h7, h8⟩

/-- What every operation leaves alone, and that it appends to the trace the events that its pins follow. -/
theorem exec_frame {i : Instr} {s t : State} (h : exec i s = .next t) :
    t.cfg = s.cfg ∧ t.pending = s.pending ∧ t.polls = s.polls ∧ t.powerUps = s.powerUps ∧
      ∃ es, t.trace = s.trace ++ es ∧ t.pins = applyEvents es s.pins := by
  cases i with
  | step raw now =>
    rw [exec_step h]
    exact ⟨stepState_cfg raw now s, stepState_pending raw now s, stepState_polls raw now s, stepState_powerUps raw now s,
      stepEvents raw now s, stepState_trace raw now s, stepState_pins raw now s⟩
  | init => cases h; exact ⟨rfl, rfl, rfl, rfl, initEvents, rfl, rfl⟩
  | render => cases h; exact ⟨rfl, rfl, rfl, rfl, renderEvents s.cfg s.lap, rfl, rfl⟩
  | encode => cases h; exact ⟨rfl, rfl, rfl, rfl, [], by simp, rfl⟩
  | segbyte => cases h; exact ⟨rfl, rfl, rfl, rfl, [], by simp, rfl⟩
  | debouncePoll => cases h; exact ⟨rfl, rfl, rfl, rfl, [], by simp, rfl⟩
  | lapUpdate => cases h; exact ⟨rfl, rfl, rfl, rfl, [], by simp, rfl⟩
  | lapStart => cases h; exact ⟨rfl, rfl, rfl, rfl, [], by simp, rfl⟩
  | lapComplete => cases h; exact ⟨rfl, rfl, rfl, rfl, [], by simp, rfl⟩
  | lapTick => cases h; exact ⟨rfl, rfl, rfl, rfl, [], by simp, rfl⟩
  | lapHold => cases h; exact ⟨rfl, rfl, rfl, rfl, [], by simp, rfl⟩
  | formatMmss => cases h; exact ⟨rfl, rfl, rfl, rfl, [], by simp, rfl⟩
  | statusRead => cases h; exact ⟨rfl, rfl, rfl, rfl, [], by simp, rfl⟩
  | clkw => cases h; exact ⟨rfl, rfl, rfl, rfl, _, rfl, rfl⟩
  | diow => cases h; exact ⟨rfl, rfl, rfl, rfl, _, rfl, rfl⟩
  | diod => cases h; exact ⟨rfl, rfl, rfl, rfl, _, rfl, rfl⟩
  | delay => cases h; exact ⟨rfl, rfl, rfl, rfl, _, rfl, rfl⟩
  | start => cases h; exact ⟨rfl, rfl, rfl, rfl, _, rfl, rfl⟩
  | stop => cases h; exact ⟨rfl, rfl, rfl, rfl, _, rfl, rfl⟩
  | writeByte => cases h; exact ⟨rfl, rfl, rfl, rfl, _, rfl, rfl⟩
  | ackWindow => cases h; exact ⟨rfl, rfl, rfl, rfl, _, rfl, rfl⟩
  | writeFrame => cases h; exact ⟨rfl, rfl, rfl, rfl, _, rfl, rfl⟩
  | cmdData => cases h; exact ⟨rfl, rfl, rfl, rfl, _, rfl, rfl⟩
  | cmdAddr => cases h; exact ⟨rfl, rfl, rfl, rfl, _, rfl, rfl⟩
  | cmdCtrl => cases h; exact ⟨rfl, rfl, rfl, rfl, _, rfl, rfl⟩
  | data => cases h; exact ⟨rfl, rfl, rfl, rfl, _, rfl, rfl⟩

/-- The operations of the driver put their events on their channel and write nothing else but the result. -/
theorem exec_driver {i : Instr} {ch : Channel} {c : Cfg} (hi : driverChannel i = some ch) :
    ∃ es, (∀ e ∈ es, channelOfEvent e = ch) ∧
      ∀ s : State, s.cfg = c → exec i s = .next { drive es s with result := .none } := by
  cases i <;> cases hi
  case clkw v => exact ⟨[.clk ch v], by simp [channelOfEvent], fun _ _ => rfl⟩
  case diow v => exact ⟨[.dio ch v], by simp [channelOfEvent], fun _ _ => rfl⟩
  case diod d => exact ⟨[.dir ch d], by simp [channelOfEvent], fun _ _ => rfl⟩
  case delay n => exact ⟨[.delay ch n], by simp [channelOfEvent], fun _ _ => rfl⟩
  case start => exact ⟨startEvents c ch, channelOf_startEvents c ch, fun _ h => by rw [← h]; rfl⟩
  case stop => exact ⟨stopEvents c ch, channelOf_stopEvents c ch, fun _ h => by rw [← h]; rfl⟩
  case writeByte b => exact ⟨writeByteEvents c ch b, channelOf_writeByteEvents c ch b, fun _ h => by rw [← h]; rfl⟩
  case ackWindow => exact ⟨ackWindowEvents c ch, channelOf_ackWindowEvents c ch, fun _ h => by rw [← h]; rfl⟩
  case writeFrame f => exact ⟨writeFrameEvents c ch f, channelOf_writeFrameEvents c ch f, fun _ h => by rw [← h]; rfl⟩
  case cmdData => exact ⟨_, channelOf_writeByteEvents c ch c.cmdDataAutoinc, fun _ h => by rw [← h]; rfl⟩
  case cmdAddr => exact ⟨_, channelOf_writeByteEvents c ch c.cmdAddrBase, fun _ h => by rw [← h]; rfl⟩
  case cmdCtrl br => exact ⟨_, channelOf_writeByteEvents c ch (controlByte c br), fun _ h => by rw [← h]; rfl⟩
  case data i b seg => exact ⟨_, channelOf_writeByteEvents c ch (colonByte c i b seg), fun _ h => by rw [← h]; rfl⟩

/-- Everything a machine step can do. -/
theorem step_cases {s t : State} (h : step s = .next t) :
    (∃ i rest bytes, s.pending = .line bytes :: rest ∧ decode bytes = .ok i ∧
      exec i { s with pending := rest } = .next t) ∨
    (∃ rest, s.pending = .reset :: rest ∧ t = hardwareReset { s with pending := rest }) ∨
    (s.pending = [] ∧ ∃ raw now, t = { stepState raw now { s with polls := s.polls + 1 } with result := .none }) := by
  unfold step takeNext at h
  split at h
  · rename_i u hu
    split at hu
    · simp at hu
    · rename_i rest hp
      simp only [Prod.mk.injEq, true_and] at hu
      cases h
      exact .inr (.inl ⟨rest, hp, by rw [hu]⟩)
    · simp [requestOf] at hu
      split at hu <;> simp at hu
  · rename_i i u hu
    split at hu
    · rename_i hp
      simp only [Prod.mk.injEq, Request.run.injEq] at hu
      obtain ⟨rfl, rfl⟩ := hu
      cases h
      exact .inr (.inr ⟨hp, _, _, rfl⟩)
    · simp at hu
    · rename_i bytes rest hp
      simp only [requestOf, Prod.mk.injEq] at hu
      split at hu
      · rename_i j hd
        simp only [Request.run.injEq] at hu
        obtain ⟨rfl, rfl⟩ := hu
        exact .inl ⟨_, rest, bytes, hp, hd, h⟩
      · simp at hu
  · cases h

theorem requestOf_ok {bytes : List Byte} {i : Instr} (hd : decode bytes = .ok i) : requestOf bytes = .run i := by
  simp only [requestOf, hd]

/-- The operations that the outside can invoke (30_encoding.md R92). -/
theorem outsideAction_line {bytes : List Byte} {i : Instr} (hd : decode bytes = .ok i)
    (h : outsideAction (.line bytes) = true) : (∃ raw now, i = .step raw now) ∨ i = .statusRead := by
  rw [outsideAction, requestOf_ok hd, outsideRequest] at h
  cases i with
  | step raw now => exact .inl ⟨raw, now, rfl⟩
  | statusRead => exact .inr rfl
  | _ => exact absurd h Bool.false_ne_true

/-- A run whose first line stands for an operation goes on after it. -/
theorem run_line (n : Nat) {s t : State} {i : Instr} {bytes : List Byte} {rest : List Stimulus}
    (hp : s.pending = .line bytes :: rest) (hd : decode bytes = .ok i) (ht : exec i { s with pending := rest } = .next t) :
    Sys2Proof.core.run (n + 1) s = Sys2Proof.core.run n t := by
  have hs : step s = .next t := by simp [step, takeNext, hp, requestOf, hd, ht]
  simp only [Host.Core.run]
  rw [show Sys2Proof.core.step s = step s from rfl, hs]

/-- The line of a STEP is read back. -/
theorem decode_step (raw : Bool) (now : Nat) (h : timeFits now = true) :
    decode (encode (.step raw now)) = .ok (.step raw now) := by
  have ht := timeOf_timeBytes 8 now ((timeFits_iff now).1 h)
  obtain ⟨b, c, d, e, f, g, k, i, hb⟩ := timeBytes_eight now
  rw [hb] at ht
  simp [encode, hb, decode, decodeFirst, bind, Except.bind, pure, Except.pure, ht]

/-- A frame on each display leaves idle buses idle. -/
theorem applyEvents_render (c : Cfg) (l : LapState) (p : PerChannel PinRegs) (h : p = { a := idlePin, b := idlePin }) :
    applyEvents (renderEvents c l) p = { a := idlePin, b := idlePin } := by
  subst h
  rw [renderEvents, applyEvents_append, applyEvents_writeFrame c .A _ _ rfl, applyEvents_writeFrame c .B _ _ rfl]
  rfl

/-- INIT leaves the buses idle whatever they were (41_serial_display_driver.md R122). -/
theorem applyEvents_init (p : PerChannel PinRegs) : applyEvents initEvents p = { a := idlePin, b := idlePin } := rfl

/-- A STEP ends with idle buses: the ones it found, or INIT's. -/
theorem stepState_idle {raw : Bool} {now : Nat} {s : State} (h : s.initialized = true → s.BusIdle) :
    (stepState raw now s).BusIdle := by
  rw [State.BusIdle, stepState_pins, stepEvents, applyEvents_append]
  apply applyEvents_render
  unfold lazyEvents
  split
  · rename_i hi; exact h hi
  · exact applyEvents_init _

end Sys2Proof.Machine
end

