-- ==== Sys2Proof/Laws/Sequence.lean ====
section
/-!
SUPPORT. Driver operations one after the other: their events in sequence.
-/
namespace Sys2Proof.Machine

/-- A state after driver events, the result cleared. -/
def driven (es : List PinEvent) (s : State) : State := { drive es s with result := .none }

@[simp] theorem driven_cfg (es : List PinEvent) (s : State) : (driven es s).cfg = s.cfg := rfl
@[simp] theorem driven_pins (es : List PinEvent) (s : State) : (driven es s).pins = applyEvents es s.pins := rfl
@[simp] theorem driven_trace (es : List PinEvent) (s : State) : (driven es s).trace = s.trace ++ es := rfl
@[simp] theorem driven_pending (es : List PinEvent) (s : State) : (driven es s).pending = s.pending := rfl

theorem driven_append (es fs : List PinEvent) (s : State) : driven (es ++ fs) s = driven fs (driven es s) := by
  simp [driven, drive, applyEvents_append]

theorem exec_start_driven (ch : Channel) (s : State) : exec (.start ch) s = .next (driven (startEvents s.cfg ch) s) := rfl
theorem exec_stop_driven (ch : Channel) (s : State) : exec (.stop ch) s = .next (driven (stopEvents s.cfg ch) s) := rfl
theorem exec_writeByte_driven (ch : Channel) (b : Byte) (s : State) :
    exec (.writeByte ch b) s = .next (driven (writeByteEvents s.cfg ch b) s) := rfl
theorem exec_writeFrame_driven (ch : Channel) (f : DigitFrame) (s : State) :
    exec (.writeFrame ch f) s = .next (driven (writeFrameEvents s.cfg ch f) s) := rfl

theorem execAll_cons {i : Instr} {s t : State} (rest : List Instr) (h : exec i s = .next t) :
    execAll (i :: rest) s = execAll rest t := by rw [execAll, h]

theorem execAll_bytes (ch : Channel) (bs : List Byte) (rest : List Instr) (s : State) :
    execAll (bs.map (fun b => .writeByte ch b) ++ rest) s =
      execAll rest (driven (bs.flatMap (writeByteEvents s.cfg ch)) s) ∨ bs = [] := by
  induction bs generalizing s with
  | nil => exact .inr rfl
  | cons b bs ih =>
    left
    rw [List.map_cons, List.cons_append, execAll_cons _ (exec_writeByte_driven ch b s), List.flatMap_cons, driven_append]
    rcases ih (driven (writeByteEvents s.cfg ch b) s) with h | rfl
    · rw [h, driven_cfg]
    · simp [driven]

/-- A session is its START, its bytes and its STOP. -/
theorem execAll_session (ch : Channel) (bs : List Byte) (rest : List Instr) (s : State) :
    execAll (.start ch :: (bs.map (fun b => .writeByte ch b) ++ (.stop ch :: rest))) s =
      execAll rest (driven (sessionEvents s.cfg ch bs) s) := by
  rw [execAll_cons _ (exec_start_driven ch s), sessionEvents, driven_append, driven_append]
  rcases execAll_bytes ch bs (.stop ch :: rest) (driven (startEvents s.cfg ch) s) with h | rfl
  · rw [h, execAll_cons _ (exec_stop_driven ch _)]
    simp only [driven_cfg]
  · simp only [List.map_nil, List.nil_append, List.flatMap_nil]
    rw [execAll_cons _ (exec_stop_driven ch _)]
    simp [driven]

end Sys2Proof.Machine
end

