-- ==== Sys2Proof/Tests/Slice0.lean ====
section
/-!
SUPPORT. Tests. Expected values come from 95_test_vectors.md (V, P), 30_encoding.md (words) and 00_scope.md R6 (configurations);
the witnesses show states and operands that meet the hypotheses of the statements.
-/
namespace Sys2Proof.Tests
open Sys2Proof Sys2Proof.Machine

/-- The state an operation answers. -/
def after (i : Instr) (s : State) : Option State :=
  match exec i s with
  | .next t => some t
  | .fault _ => none
  | .refused _ => none

/-- The state a machine step answers. -/
def stepped (s : State) : Option State :=
  match step s with
  | .next t => some t
  | .fault _ => none
  | .refused _ => none

/-- Whether a machine step refuses. -/
def refuses (s : State) : Bool :=
  match step s with
  | .next _ => false
  | .fault _ => false
  | .refused _ => true

/-- The operation a line decodes to. -/
def decoded (line : List Byte) : Option Instr :=
  match decode line with
  | .ok i => some i
  | .error _ => none

/-- Why a line decodes to none. -/
def rejected (line : List Byte) : Option Reject :=
  match decode line with
  | .ok _ => none
  | .error r => some r

/-- The state after INIT. -/
def afterInit : State := initState State.reset

/-- The same with a configuration. -/
def initWith (c : Cfg) : State := initState (State.resetWith c)

def cfgPause : Cfg := { Config.default with lapPolicy := .pauseOnLap, wf := by decide }
def cfgNinth : Cfg := { Config.default with ackNinthClock := true, wf := by decide }
/-- Other widths and bounds: a clock of 64 bits (D2), a count of 3 bits, minutes up to 59. -/
def cfgWide : Cfg := { Config.default with tsWidth := 64, lapCountWidth := 3, minMax := 59, wf := by decide }
def cfgBright : Cfg := { Config.default with brightness := { a := some 7, b := some 0 }, wf := by decide }

/-- A running timer at an elapsed time, its reference given. -/
def runningAt (m sec : TwoDigits) (ref : Nat) : LapState :=
  { running := true, min := m, sec := sec, tickRef := ref, lastMin := 0, lastSec := 0, valid := false, count := 0 }

def withLap (l : LapState) (s : State) : State := { s with lap := l }
def withBeam (b : BeamState) (s : State) : State := { s with beam := b }
def withLines (ls : List Stimulus) (s : State) : State := { s with pending := ls }

/-! ### Ill-formed terms are refused -/

theorem test_smoke_colon_misplaced : (Instr.data .A 0 true 0x06).wellFormed = false := by decide
theorem test_smoke_colon_at_place_one : (Instr.data .A 1 true 0x06).wellFormed = true := by decide
theorem test_smoke_default_config : Config.defaultData.wellFormed = true := by decide
theorem test_smoke_seconds_sixty : (Instr.formatMmss 0 60 true).wellFormed = false := by decide
theorem test_smoke_time_too_long :
    (Instr.step true (2 ^ 64)).wellFormed = false ∧ (Instr.delay .A (2 ^ 64)).wellFormed = false ∧
      (Instr.debouncePoll true (2 ^ 64)).wellFormed = false ∧ (Instr.lapUpdate true (2 ^ 64)).wellFormed = false ∧
      (Instr.lapStart (2 ^ 64)).wellFormed = false ∧ (Instr.lapComplete (2 ^ 64)).wellFormed = false := by decide
theorem test_smoke_no_timestamp_width : Cfg.ofData { Config.defaultData with tsWidth := 0 } = none := by decide
theorem test_smoke_no_count_width : Cfg.ofData { Config.defaultData with lapCountWidth := 0 } = none := by decide
theorem test_smoke_three_digit_minutes : Cfg.ofData { Config.defaultData with minMax := 100 } = none := by decide
theorem test_smoke_three_digit_seconds : Cfg.ofData { Config.defaultData with secMax := 100 } = none := by decide
theorem test_smoke_window_too_wide : Cfg.ofData { Config.defaultData with debounceWindowUs := 2 ^ 32 } = none := by decide
theorem test_smoke_period_too_wide : Cfg.ofData { Config.defaultData with tickPeriodUs := 2 ^ 32 } = none := by decide
theorem test_smoke_hold_a_too_short : Cfg.ofData { Config.defaultData with tHold := { a := 1, b := 3 } } = none := by decide
theorem test_smoke_hold_b_too_short : Cfg.ofData { Config.defaultData with tHold := { a := 3, b := 1 } } = none := by decide
theorem test_smoke_brightness_a : Cfg.ofData { Config.defaultData with brightness := { a := some 8, b := none } } = none := by
  decide
theorem test_smoke_brightness_b : Cfg.ofData { Config.defaultData with brightness := { a := none, b := some 8 } } = none := by
  decide
theorem test_smoke_two_equal_patterns :
    Cfg.ofData { Config.defaultData with seg := Config.defaultSeg.set 9 0x3F } = none := by decide
theorem test_smoke_two_equal_pins : Cfg.ofData { Config.defaultData with pinBeam := 3 } = none := by decide

/-! ### Decoding: words of 30_encoding.md R82 to R85 and R92, bit by bit -/

theorem test_decode_pin : decoded [0b00000010, 0, 1, 0, 0, 0, 0, 0, 0, 0, 0] = some (.diod .B .input) := by decide
theorem test_decode_driver : decoded [0b00000100, 0, 0, 0, 0, 0, 0, 0, 0, 0, 0] = some (.start .A) := by decide
theorem test_decode_codec :
    decoded [0b00001010, 0, 9, 1, 1, 0, 0, 0, 0, 0, 0] = some (.segbyte 9 1 true) := by decide
theorem test_decode_filter :
    decoded [0b00001011, 0, 1, 0x50, 0xC3, 0, 0, 0, 0, 0, 0] = some (.debouncePoll true 50000) := by decide
theorem test_decode_timer : decoded [0b00001101, 0, 0, 0x40, 0x42, 0x0F, 0, 0, 0, 0, 0] = some (.lapStart 1000000) := by decide
theorem test_decode_render :
    decoded [0b00010001, 0, 99, 59, 1, 0, 0, 0, 0, 0, 0] = some (.formatMmss 99 59 true) := by decide
theorem test_decode_cmd_data : decoded [0b01000000, 0, 1, 0, 0, 0, 0, 0, 0, 0, 0] = some (.cmdData .B) := by decide
theorem test_decode_cmd_addr : decoded [0b11000000, 0, 0, 0, 0, 0, 0, 0, 0, 0, 0] = some (.cmdAddr .A) := by decide
theorem test_decode_cmd_ctrl : decoded [0b10001101, 0, 0, 0, 0, 0, 0, 0, 0, 0, 0] = some (.cmdCtrl .A 5) := by decide
theorem test_decode_data : decoded [0b01101111, 4, 0, 0, 0, 0, 0, 0, 0, 0, 0] = some (.data .A 3 false 0x6F) := by decide
/-- A data byte may equal a command byte: its place tells (30_encoding.md R81). -/
theorem test_decode_data_like_command :
    decoded [0b01000000, 1, 0, 0, 0, 0, 0, 0, 0, 0, 0] = some (.data .A 0 false 0x40) := by decide
theorem test_decode_colon_misplaced : rejected [0b10000110, 1, 0, 0, 0, 0, 0, 0, 0, 0, 0] = some .colonMisplaced := by decide
theorem test_decode_unused_opsel : rejected [0x16, 0, 0, 0, 0, 0, 0, 0, 0, 0, 0] = some .unusedOpsel := by decide
theorem test_decode_unused_word : rejected [0x20, 0, 0, 0, 0, 0, 0, 0, 0, 0, 0] = some .unusedWord := by decide
theorem test_decode_digit_ten : rejected [0x09, 0, 10, 0, 0, 0, 0, 0, 0, 0, 0] = some .digitRange := by decide
theorem test_decode_seconds_sixty : rejected [0x11, 0, 0, 60, 0, 0, 0, 0, 0, 0, 0] = some .secondsRange := by decide
theorem test_decode_minutes_hundred : rejected [0x11, 0, 100, 0, 0, 0, 0, 0, 0, 0, 0] = some .minutesRange := by decide
theorem test_decode_long_time : decoded [0x0D, 0, 0, 0, 0, 0, 0, 0, 0, 0, 1] = some (.lapStart (2 ^ 56)) := by decide
theorem test_decode_short : rejected [0x09] = some .wrongLength := by decide

/-- The operation numbers 0x00 to 0x15 of 30_encoding.md R92, operands zero. -/
theorem test_opsel_numbers :
    (List.range 22).map (decodeTableWord 8) =
      [some (.clkw .A false), some (.diow .A false), some (.diod .A .input), some (.delay .A 0), some (.start .A),
        some (.stop .A), some (.writeByte .A 0), some (.ackWindow .A), some (.writeFrame .A ⟨0, 0, 0, 0, false⟩),
        some (.encode 0), some (.segbyte 0 0 false), some (.debouncePoll false 0), some (.lapUpdate false 0),
        some (.lapStart 0), some (.lapComplete 0), some .lapTick, some .lapHold, some (.formatMmss 0 0 false),
        some .render, some .init, some (.step false 0), some .statusRead] := by decide +kernel

/-- A placed word is the very next operation. -/
theorem test_withFetchWord :
    ((stepped (State.reset.withFetchWord 8 0x04)).map (fun t => t.trace.length)) = some 5 := by decide +kernel

/-! ### Each operation -/

theorem test_clkw : (after (.clkw .A false) afterInit).map (fun t => t.pins) =
    some { a := { clk := false, dioOut := true, dioDir := .output }, b := idlePin } := by decide
/-- A write that changes nothing still is an event (00_scope.md R11). -/
theorem test_clkw_same_level : (after (.clkw .A true) State.reset).map (fun t => t.trace) = some [.clk .A true] := by decide
theorem test_diow : (after (.diow .B true) State.reset).map (fun t => (t.trace, t.pins.b.dioOut, t.pins.a.dioOut)) =
    some ([.dio .B true], true, false) := by decide
theorem test_diod_keeps_latch : (after (.diod .A .input) afterInit).map (fun t => t.pins.a) =
    some { clk := true, dioOut := true, dioDir := .input } := by decide
theorem test_delay : (after (.delay .A 5) State.reset).map (fun t => (t.trace, t.pins)) =
    some ([.delay .A 5], State.reset.pins) := by decide

/-- V12. -/
theorem test_start : (after (.start .A) State.reset).map (fun t => t.trace) =
    some [.clk .A true, .dio .A true, .delay .A 3, .dio .A false, .delay .A 3] := by decide
theorem test_stop : (after (.stop .A) State.reset).map (fun t => t.trace) =
    some [.clk .A false, .delay .A 3, .dio .A false, .delay .A 3, .clk .A true, .delay .A 3, .dio .A true, .delay .A 3] := by
  decide
/-- V10: bits 1, 1, 1, 1, 0, 0, 0, 1, 44 events, 53 microseconds, clock 0, latch 1. -/
theorem test_writeByte_v10 :
    (after (.writeByte .A 0x8F) State.reset).map (fun t =>
      (t.trace.filterMap (fun e => match e with | .dio _ v => some v | .clk _ _ => none | .dir _ _ => none | .delay _ _ => none),
        t.trace.length, delaySum t.trace, t.pins.a)) =
      some ([true, true, true, true, false, false, false, true], 44, 53,
        { clk := false, dioOut := true, dioDir := .output }) := by decide +kernel
/-- V11. -/
theorem test_writeByte_ninth :
    (after (.writeByte .A 0x8F) (State.resetWith cfgNinth)).map (fun t => (t.trace.length, delaySum t.trace)) =
      some (47, 56) := by decide +kernel
theorem test_ackWindow : (after (.ackWindow .B) State.reset).map (fun t => t.trace) =
    some [.clk .B false, .dir .B .input, .delay .B 5, .dir .B .output] := by decide
theorem test_ackWindow_ninth : (after (.ackWindow .A) (State.resetWith cfgNinth)).map (fun t => t.trace) =
    some [.clk .A false, .dir .A .input, .delay .A 5, .clk .A true, .delay .A 3, .clk .A false, .dir .A .output] := by decide
/-- V16. -/
theorem test_writeFrame_v16 :
    (after (.writeFrame .A ⟨0, 1, 2, 3, true⟩) (State.resetWith Config.default)).map (fun t =>
      (sessionsFrom idlePin .A t.trace, t.trace.length, delaySum t.trace)) =
      some ([[0x40], [0xC0, 0x3F, 0x86, 0x5B, 0x4F]], 290, 354) := by decide +kernel
/-- V15. -/
theorem test_writeFrame_v15 :
    (after (.writeFrame .A ⟨0, 1, 2, 3, true⟩) (State.resetWith cfgBright)).map (fun t =>
      (sessionsFrom idlePin .A t.trace, t.trace.length, delaySum t.trace)) =
      some ([[0x40], [0xC0, 0x3F, 0x86, 0x5B, 0x4F], [0x8F]], 347, 425) := by decide +kernel

/-- V1. -/
theorem test_encode : (List.finRange 10).map (segmentsOf Config.default) =
    [0x3F, 0x06, 0x5B, 0x4F, 0x66, 0x6D, 0x7D, 0x07, 0x7F, 0x6F] := by decide
theorem test_encode_result : (after (.encode 8) State.reset).map (fun t => t.result) = some (.segments 0b1111111) := by decide
/-- V2, V3. -/
theorem test_segbyte_colon : (after (.segbyte 2 1 true) State.reset).map (fun t => t.result) = some (.byte 0xDB) := by decide
theorem test_segbyte_elsewhere : (after (.segbyte 1 2 true) State.reset).map (fun t => t.result) = some (.byte 0x06) := by decide

/-- V20, the last poll: a difference of exactly the window commits. -/
theorem test_debouncePoll_v20 :
    (after (.debouncePoll false 51000) (withBeam ⟨false, true, 1000⟩ State.reset)).map (fun t => (t.result, t.beam)) =
      some (.edges true false, ⟨false, false, 1000⟩) := by decide
/-- V25: the clock wraps inside the window, difference 49999. -/
theorem test_debouncePoll_v25 :
    (after (.debouncePoll false 49989) (withBeam ⟨false, true, 4294967286⟩ State.reset)).map (fun t => (t.result, t.beam)) =
      some (.edges false false, ⟨false, true, 4294967286⟩) := by decide
/-- V23. -/
theorem test_polls_v23 :
    pollAll Config.default [(false, 0), (true, 20000), (false, 40000), (false, 89999), (false, 90000)] ⟨true, true, 0⟩ =
      (⟨false, false, 40000⟩, [noEdges, noEdges, noEdges, noEdges, ⟨true, false⟩]) := by decide
/-- V24. -/
theorem test_polls_v24 :
    pollAll Config.default [(false, 0), (true, 10000), (false, 20000), (false, 50000), (false, 70000)] ⟨true, true, 0⟩ =
      (⟨false, false, 20000⟩, [noEdges, noEdges, noEdges, noEdges, ⟨true, false⟩]) := by decide

/-- V38: the event arm comes before a due tick. -/
theorem test_lapUpdate_v38 :
    (after (.lapUpdate true 1200000) (withLap (runningAt 0 4 0) State.reset)).map (fun t => t.lap) =
      some { runningAt 0 0 1200000 with lastSec := 4, valid := true, count := 1 } := by decide
/-- V36: the reference wraps. -/
theorem test_lapUpdate_v36 :
    (after (.lapUpdate false 700000) (withLap (runningAt 0 7 4294667296) State.reset)).map (fun t => t.lap) =
      some (runningAt 0 8 700000) := by decide
/-- V30. -/
theorem test_lapStart : (after (.lapStart 777) afterInit).map (fun t => t.lap) = some (runningAt 0 0 777) := by decide
/-- V31. -/
theorem test_lapComplete_restart :
    (after (.lapComplete 83400000) (withLap (runningAt 1 23 83000500) State.reset)).map (fun t => t.lap) =
      some { runningAt 0 0 83400000 with lastMin := 1, lastSec := 23, valid := true, count := 1 } := by decide
/-- V32; and a count of three bits wraps (43_lap_timer.md R163, 00_scope.md R5). -/
theorem test_lapComplete_pause :
    (after (.lapComplete 83400000) (withLap (runningAt 1 23 83000500) (State.resetWith cfgPause))).map (fun t => t.lap) =
      some { runningAt 1 23 83000500 with running := false, lastMin := 1, lastSec := 23, valid := true, count := 1 } ∧
      (after (.lapComplete 5) (withLap { runningAt 0 4 0 with count := 7 } (State.resetWith cfgWide))).map
        (fun t => t.lap.count) = some 0 := by decide
/-- V35; and with a clock of 64 bits, which does not wrap at 2^32 (D2), and minutes up to 59 (00_scope.md R5). -/
theorem test_lapTick_wrap :
    (after .lapTick (withLap (runningAt 99 59 0) State.reset)).map (fun t => t.lap) = some (runningAt 0 0 1000000) ∧
      (after .lapTick (withLap (runningAt 59 59 4294967296) (State.resetWith cfgWide))).map (fun t => t.lap) =
        some (runningAt 0 0 4295967296) := by decide
/-- V34. -/
theorem test_lapTick_minute : (after .lapTick (withLap (runningAt 0 59 5000000) State.reset)).map (fun t => t.lap) =
    some (runningAt 1 0 6000000) := by decide
/-- V40. -/
theorem test_lapHold : (after .lapHold afterInit).map (fun t => t.lap) = some afterInit.lap := by decide

/-- V50. -/
theorem test_formatMmss : (after (.formatMmss 10 5 true) State.reset).map (fun t => t.result) =
    some (.frame ⟨1, 0, 0, 5, true⟩) := by decide
theorem test_formatMmss_top : (after (.formatMmss 99 59 true) State.reset).map (fun t => t.result) =
    some (.frame ⟨9, 9, 5, 9, true⟩) := by decide
/-- V51. -/
theorem test_render_v51 :
    (after .render { withLap (runningAt 1 23 0) afterInit with trace := [] }).map (fun t =>
      (sessionsFrom idlePin .A t.trace, sessionsFrom idlePin .B t.trace, t.trace.length, delaySum t.trace)) =
      some ([[0x40], [0xC0, 0x3F, 0x86, 0x5B, 0x4F]], [[0x40], [0xC0, 0x3F, 0xBF, 0x3F, 0x3F]], 580, 708) := by
  decide +kernel
/-- V52. -/
theorem test_init : (after .init State.reset).map (fun t => (t.trace, t.beam.lastRaw, t.beam.debounced)) =
    some ([.dir .A .output, .clk .A true, .dio .A true, .dir .B .output, .clk .B true, .dio .B true], true, true) := by decide
/-- P1. -/
theorem test_step_p1 :
    (after (.step true 1000) State.reset).map (fun t => (t.trace.length, t.initialized, t.beam.debounced, t.pins.a)) =
      some (586, true, true, idlePin) := by decide +kernel
/-- P2, the step at 100000. -/
theorem test_step_commit :
    (after (.step false 100000) (withBeam ⟨false, true, 50000⟩ afterInit)).map (fun t => (t.lap, t.beam)) =
      some (runningAt 0 0 100000, ⟨false, false, 50000⟩) := by decide +kernel
/-- V53. -/
theorem test_statusRead : (after .statusRead afterInit).map (fun t => t.result) =
    some (.status { running := false, min := 0, sec := 0, lastMin := 0, lastSec := 0, valid := false, count := 0,
                    debounced := true }) := by decide

/-- A wire byte goes out as WRITE_BYTE puts it (30_encoding.md R80, R82 to R85). -/
theorem test_cmdData : (after (.cmdData .A) State.reset).map (fun t => t.trace) =
    (after (.writeByte .A 0x40) State.reset).map (fun t => t.trace) := by decide +kernel
theorem test_cmdAddr : (after (.cmdAddr .B) State.reset).map (fun t => t.trace) =
    (after (.writeByte .B 0xC0) State.reset).map (fun t => t.trace) := by decide +kernel
theorem test_cmdCtrl : (after (.cmdCtrl .A 7) State.reset).map (fun t => t.trace) =
    (after (.writeByte .A 0x8F) State.reset).map (fun t => t.trace) := by decide +kernel
theorem test_data : (after (.data .A 1 true 0x06) State.reset).map (fun t => t.trace) =
    (after (.writeByte .A 0x86) State.reset).map (fun t => t.trace) := by decide +kernel

/-! ### Witnesses: states and operands that meet the hypotheses of each statement -/

/-- ResetStimulusLeavesRegistersUnspecified. -/
theorem test_witness_reset_stimulus : (withLines [.reset] afterInit).pending = .reset :: [] := by decide
/-- StepRunsTheDecodedLine, its three clauses. -/
theorem test_witness_step_line :
    (withLines [.line (encode .lapHold)] State.reset).pending = .line (encode .lapHold) :: [] ∧
      decoded (encode .lapHold) = some .lapHold ∧ Instr.lapHold.wellFormed = true ∧ State.reset.pending = [] := by decide
/-- StepStopsExactlyOnUndecodableLines: both sides. -/
theorem test_witness_step_refuses :
    refuses (withLines [.line [0x16, 0, 0, 0, 0, 0, 0, 0, 0, 0, 0]] State.reset) = true ∧
      rejected [0x16, 0, 0, 0, 0, 0, 0, 0, 0, 0, 0] = some .unusedOpsel := by decide
/-- DecodeOfEncodeGivesTheOperationBack, EachOperationHasOneLine. -/
theorem test_witness_encode :
    (Instr.data .B 1 true 0x7F).wellFormed = true ∧
      decoded (encode (.data .B 1 true 0x7F)) = some (.data .B 1 true 0x7F) := by decide
/-- IllFormedConfigurationsAreRefused: a configuration on each side. -/
theorem test_witness_config :
    Config.default.minMax = 99 ∧ Config.default.secMax = 59 ∧ Config.default.tsWidth = 32 ∧
    (Cfg.ofData Config.defaultData).isSome = true ∧
      (Cfg.ofData { Config.defaultData with tHold := { a := 2, b := 2 } }).isSome = true ∧
      Cfg.ofData { Config.defaultData with pinBeam := 3 } = none := by decide
/-- AckWindowReleasesAndRestores, WriteByteDrawsEightCellsAndTheWindow: both ninth clocks. -/
theorem test_witness_ninth_clock : cfgNinth.ackNinthClock = true ∧ Config.default.ackNinthClock = false := by decide
/-- WriteFrameIsItsStartsBytesAndStops, FrameIsTwoOrThreeSessions, FrameEventAndDelayCounts: both brightness options. -/
theorem test_witness_brightness :
    cfgBright.brightness.get .A = some 7 ∧ Config.default.brightness.get .A = none := by decide
/-- SegbyteOrsTheColonAtPlaceOne, WireBytesGoOutAsWriteByte: both branches. -/
theorem test_witness_colon : ((1 : Place) = 1 ∧ true = true) ∧ ¬((3 : Place) = 1 ∧ true = true) := by decide
/-- DebouncePollRecordsThenCommits: both branches, at the window's boundary. -/
theorem test_witness_poll :
    (false ≠ true ∧ (Config.default.debounceWindowUs : Int) ≤ (((51000 : Nat) : Int) - 1000) % 2 ^ Config.default.tsWidth) ∧
      ¬(false ≠ true ∧ (Config.default.debounceWindowUs : Int) ≤
        (((50999 : Nat) : Int) - 1000) % 2 ^ Config.default.tsWidth) := by decide
/-- LapStartResetsAndRuns, LapCompleteRecordsTheLap: an idle timer, both policies, the largest time of `W` bits. -/
theorem test_witness_lap_events :
    afterInit.lap.running = false ∧ Config.default.lapPolicy = .restartOnLap ∧ cfgPause.lapPolicy = .pauseOnLap ∧
      4294967295 < 2 ^ afterInit.cfg.tsWidth := by decide
/-- LapTickAdvancesReferenceAndCascades, LapTickCountsModulo6000, LapUpdateRunsExactlyOneArm: an elapsed time in range, the
seconds and minutes at their bounds, the tick test on both sides of its boundary. -/
theorem test_witness_tick :
    (runningAt 99 59 1000).sec.val = 59 ∧ (runningAt 99 59 1000).min.val = 99 ∧ (runningAt 98 59 1000).min.val ≠ 99 ∧
      (runningAt 0 58 1000).sec.val ≠ 59 ∧ (runningAt 0 0 1000).running = true ∧
      (runningAt 99 59 1000).ElapsedInRange Config.default ∧ Config.default.secMax = 59 ∧ Config.default.minMax = 99 ∧
      (Config.default.tickPeriodUs : Int) ≤ (((1001000 : Nat) : Int) - 1000) % 2 ^ Config.default.tsWidth ∧
      (((1000999 : Nat) : Int) - 1000) % 2 ^ Config.default.tsWidth < (Config.default.tickPeriodUs : Int) := by
  unfold LapState.ElapsedInRange; decide
/-- StepIsItsFourParts: both branches; InitialisedIsSetOnceAndNeverCleared, RegistersBeforeInitHaveNoEffect and
FirstStepShowsZeroOnBothDisplays: a state before INIT, a positive window. -/
theorem test_witness_initialised :
    afterInit.initialized = true ∧ State.reset.initialized = false ∧ 0 < State.reset.cfg.debounceWindowUs ∧
      (withBeam ⟨true, false, 7⟩ State.reset).initialized = false ∧
      (withBeam ⟨true, false, 7⟩ State.reset).cfg = State.reset.cfg ∧
      (after (.step true 1) State.reset).isSome = true ∧ (after .init State.reset).isSome = true ∧
      (after (.step true 1) afterInit).isSome = true := by decide +kernel
/-- OnlyTheNamedOperationsWriteEachGroup: an operation that changes each group. -/
theorem test_witness_groups_change :
    (after .init State.reset).map (fun t => decide (t.initialized ≠ State.reset.initialized)) = some true ∧
      (after (.debouncePoll true 1) State.reset).map (fun t => decide (t.beam ≠ State.reset.beam)) = some true ∧
      (after (.lapStart 1) State.reset).map (fun t => decide (t.lap ≠ State.reset.lap)) = some true ∧
      (after (.clkw .A true) State.reset).map (fun t => decide (t.pins ≠ State.reset.pins)) = some true ∧
      (after (.delay .A 1) State.reset).map (fun t => decide (t.trace ≠ State.reset.trace)) = some true := by decide
/-- OnlyACompletedLapWritesTheLastLap: each of the four cases changes a field. -/
theorem test_witness_last_lap_changes :
    (after (.lapComplete 5) (withLap (runningAt 0 1 0) afterInit)).map (fun t => decide (t.lap.count ≠ 0)) = some true ∧
      (after (.lapUpdate true 5) (withLap (runningAt 0 1 0) afterInit)).map (fun t => decide (t.lap.valid ≠ false)) =
        some true ∧
      (after .init (withLap { runningAt 0 1 0 with count := 3 } State.reset)).map (fun t => decide (t.lap.count ≠ 3)) =
        some true ∧
      (after (.step false 51000) (withLap (runningAt 0 1 0) (withBeam ⟨false, true, 1000⟩ afterInit))).map
        (fun t => decide (t.lap.count ≠ 0)) = some true := by decide +kernel
/-- DriverOperationsTouchOneChannel, DriverEventsDependOnOperandsAndCfgOnly. -/
theorem test_witness_driver :
    driverChannel (.writeFrame .B ⟨9, 9, 5, 9, true⟩) = some .B ∧ driverChannel (.cmdCtrl .A 7) = some .A ∧
      afterInit.cfg = State.reset.cfg ∧ (after (.stop .A) afterInit).isSome = true := by decide
/-- TraceIsAppendedAndExplainsThePins, EncodeIsInjectiveAndFixed. -/
theorem test_witness_exec_answers :
    (after .render afterInit).isSome = true ∧ (after (.encode 9) State.reset).map (fun t => t.result) =
      some (.segments (State.reset.cfg.seg.get 9)) := by decide +kernel
/-- StartMakesExactlyOneStartMarker, FrameIsTwoOrThreeSessions, FrameWritesFourDisplayPositions: the idle bus, on both
channels. -/
theorem test_witness_idle : afterInit.pins.get .A = idlePin ∧ afterInit.pins.get .B = idlePin := by decide
/-- DataWireTurnsOnlyWithClockLow, EveryStepSendsOneFramePerDisplay. -/
theorem test_witness_bus_idle : afterInit.initialized = true ∧ afterInit.BusIdle := by unfold State.BusIdle; decide

/-- A receiver in an open session, its wires those of a state after WRITE_BYTE. -/
def openReceiver : Receiver where
  pin := { clk := false, dioOut := true, dioDir := .output }
  isOpen := true
  bits := [true]
  edge := none
  starts := 1
  stops := 0
  closed := []

/-- StopMakesExactlyOneStopMarker, WriteByteCarriesBitsLeastSignificantFirst. -/
theorem test_witness_open_session :
    (after (.writeByte .A 0x80) afterInit).map (fun t =>
      decide ((t.pins.get .A).clk = false ∧ (t.pins.get .A).dioDir = .output ∧ openReceiver.pin = t.pins.get .A ∧
        openReceiver.isOpen = true ∧ openReceiver.edge = none)) = some true := by decide +kernel
/-- SessionLinesCarryTheirBytes (P5). -/
theorem test_witness_session :
    (withLines (sessionLines .A [0x8F]) afterInit).pending = sessionLines .A [0x8F] ∧
      (withLines (sessionLines .A [0x8F]) afterInit).pins.get .A = idlePin := by decide
/-- NoiseIsDiscardedAndRestartsTheWindow: both clauses (V21), a time of `W` bits. -/
theorem test_witness_noise :
    (withBeam ⟨false, true, 1000⟩ afterInit).beam.lastRaw ≠ (withBeam ⟨false, true, 1000⟩ afterInit).beam.debounced ∧
      true = (withBeam ⟨false, true, 1000⟩ afterInit).beam.debounced ∧
      true ≠ (withBeam ⟨false, true, 1000⟩ afterInit).beam.lastRaw ∧ 21000 < 2 ^ afterInit.cfg.tsWidth := by decide
/-- DebouncedLevelChangesOnlyWhenStable (V20). -/
theorem test_witness_stable :
    afterInit.beam.lastRaw = afterInit.beam.debounced ∧ 0 < afterInit.cfg.debounceWindowUs ∧
      (after (.debouncePoll false 51000)
        (withBeam (pollAll Config.default [(false, 1000), (false, 50999)] afterInit.beam).1 afterInit)).map
        (fun t => (t.beam.debounced, (pollAll Config.default [(false, 1000), (false, 50999)] afterInit.beam).1.debounced)) =
      some (false, true) := by decide
/-- BeamBreaksAreTwoWindowsApart (V27): times that do not go back, and both polls report a fall. -/
theorem test_witness_beam_breaks :
    timesRise [50000, 60000, 110000, 120000, 170000] ∧
      (debouncePoll Config.default false 50000 ⟨false, true, 0⟩).2.fall = true ∧
      (debouncePoll Config.default false 170000
        (pollAll Config.default ([(true, 60000), (true, 110000), (false, 120000)].map (fun p => sampleAt Config.default p.1 p.2))
          (debouncePoll Config.default false 50000 ⟨false, true, 0⟩).1).1).2.fall = true :=
  ⟨by simp [timesRise], by decide, by decide⟩
/-- PendingFlagFilterIsEquivalent, StaleTimestampIsNeverRead: a settled filter. -/
theorem test_witness_settled : (⟨true, true, 9⟩ : BeamState).lastRaw = (⟨true, true, 9⟩ : BeamState).debounced := by decide
/-- IdleTickReferenceIsNeverRead: an idle timer, and one that an update starts. -/
theorem test_witness_idle_timer :
    afterInit.lap.running = false ∧ (updateAll Config.default [(true, 777)] afterInit.lap).running = true := by decide
/-- ElapsedTimeIsWholePeriodsSinceTheStart (V43): the premises, and the elapsed second of the vector. -/
theorem test_witness_elapsed :
    0 < Config.default.tickPeriodUs ∧ 2 * Config.default.tickPeriodUs ≤ 2 ^ Config.default.tsWidth ∧
      timesWithin Config.default.tickPeriodUs [500, 250500, 500500, 750500, 1000500] ∧
      elapsedSeconds Config.default (updateAll Config.default
        ([250500, 500500, 750500, 1000500].map (fun t => sampleAt Config.default false t))
        (lapStart Config.default 500 afterInit.lap)) = 1 :=
  ⟨by decide, by decide, by simp [timesWithin, Config.default, Config.defaultData], by decide⟩
/-- RunOfStepsThreadsFilterAndTimer, LastLapPersistsUnderPolling: two steps without an event. -/
theorem test_witness_step_lines :
    (withLines (stepLines [(true, 10), (false, 20)]) afterInit).pending = stepLines [(true, 10), (false, 20)] ∧
      (withLines (stepLines [(true, 10), (false, 20)]) afterInit).initialized = true ∧
      (withLines (stepLines [(true, 10), (false, 20)]) afterInit).BusIdle ∧
      (∀ x ∈ [(true, 10), (false, 20)], x.2 < 2 ^ 64) ∧
      (pollAll (withLines (stepLines [(true, 10), (false, 20)]) afterInit).cfg [(true, 10), (false, 20)]
        afterInit.beam).2 = [noEdges, noEdges] := by
  unfold State.BusIdle; decide
/-- StepKeepsLapRecordConsistent: a state after INIT with a STEP placed. -/
theorem test_witness_lap_record :
    (withLines (stepLines [(true, 10)]) afterInit).LapRecordInv ∧ (withLines (stepLines [(true, 10)]) afterInit).RangeInv ∧
      (withLines (stepLines [(true, 10)]) afterInit).WidthInv ∧
      (stepped (withLines (stepLines [(true, 10)]) afterInit)).isSome = true :=
  ⟨by unfold State.LapRecordInv; decide, by unfold State.RangeInv LapState.ElapsedInRange; decide, by unfold State.WidthInv; decide,
    by decide +kernel⟩
/-- StepKeepsBothBusesIdle: a state after INIT with STATUS_READ and RESET placed, and one with a STEP. -/
theorem test_witness_idle_bus :
    (withLines [.line (encode .statusRead), .reset] afterInit).IdleBusInv ∧
      (stepped (withLines [.line (encode .statusRead), .reset] afterInit)).isSome = true ∧
      (withLines (stepLines [(true, 10)]) afterInit).IdleBusInv := by
  refine ⟨?_, by decide, ?_⟩ <;> unfold State.IdleBusInv State.OutsideOnly State.BusIdle <;> decide

end Sys2Proof.Tests
end

/-!
PROOFS. The segment codec (40_segment_codec.md): ENCODE's answer, and DECODE_SEG as its left inverse.
-/
namespace Sys2Proof.Machine

/-- ENCODE's answer (40_segment_codec.md R100). -/
theorem exec_encode (d : Digit) (s : State) :
    exec (.encode d) s = .next { s with result := .segments (segmentsOf s.cfg d) } := rfl

theorem segmentsOf_injective (c : Cfg) : Function.Injective (segmentsOf c) := fun _ _ h => c.seg_injective h

/-- DECODE_SEG finds the digit of every pattern in the table: the search meets some digit with that pattern, and no other digit
shares it. -/
@[simp] theorem digitOfSegments_segmentsOf (c : Cfg) (d : Digit) : digitOfSegments c (segmentsOf c d) = some d := by
  unfold digitOfSegments
  cases hfind : (List.finRange 10).find? (fun e => segmentsOf c e == segmentsOf c d) with
  | none => exact absurd (beq_self_eq_true _) (List.find?_eq_none.mp hfind d (List.mem_finRange d))
  | some e =>
    have hpattern := List.find?_some hfind
    rw [segmentsOf_injective c (eq_of_beq hpattern)]

/-- Settles O16: the answer of ENCODE is the state with the table entry as its result. -/
theorem encodeReturnsTheTableEntry : Obligations.EncodeReturnsTheTableEntry := by
  unfold Obligations.EncodeReturnsTheTableEntry
  exact exec_encode

/-- Settles O36: equal answers have equal results, so equal patterns, so equal digits; the result is the digit's pattern, which
DECODE_SEG inverts; every operation keeps the whole configuration. -/
theorem encodeIsInjectiveAndFixed : Obligations.EncodeIsInjectiveAndFixed := by
  unfold Obligations.EncodeIsInjectiveAndFixed
  refine ⟨fun s d e h => ?injective, fun s t d seg h hseg => ?leftInverse, fun i s t h => ?fixed⟩
  case injective =>
    rw [exec_encode, exec_encode] at h
    injection h with hstate
    injection congrArg State.result hstate with hpattern
    exact segmentsOf_injective s.cfg hpattern
  case leftInverse =>
    rw [exec_encode] at h
    cases h
    cases hseg
    exact digitOfSegments_segmentsOf s.cfg d
  case fixed =>
    obtain ⟨hcfg, _⟩ := exec_frame h
    rw [hcfg]

end Sys2Proof.Machine

/-!
PROOFS. The debounce filter (42_debounce.md): the answer of DEBOUNCE_POLL, the restart of the window, and noise.
-/
namespace Sys2Proof.Machine

/-- DEBOUNCE_POLL's answer (42_debounce.md R142): the filter's next registers, with the two events as the result. -/
theorem exec_debouncePoll (raw : Bool) (now : Nat) (s : State) :
    exec (.debouncePoll raw now) s =
      .next { s with
        beam := (debouncePoll s.cfg raw now s.beam).1
        result := .edges (debouncePoll s.cfg raw now s.beam).2.fall (debouncePoll s.cfg raw now s.beam).2.rise } := rfl

/-- Whether or not it commits, a poll leaves the timestamp of its record part. -/
theorem debouncePoll_changeTs (c : Cfg) (raw : Bool) (now : Nat) (b : BeamState) :
    (debouncePoll c raw now b).1.changeTs = stampAfter c raw now b := by
  rcases debouncePoll_cases c raw now b with ⟨_, _, h⟩ | ⟨_, h⟩ <;> rw [h]

/-- A change of the raw level restarts the window (42_debounce.md R143, R144). -/
theorem stampAfter_of_change {c : Cfg} {raw : Bool} {now : Nat} {b : BeamState} (hnow : now < 2 ^ c.tsWidth)
    (hchange : raw ≠ b.lastRaw) : stampAfter c raw now b = now := by
  rw [stampAfter, if_neg hchange, modW, Nat.mod_eq_of_lt hnow]

/-- A sample of the debounced level commits nothing: the filter is settled after it (42_debounce.md R144). -/
theorem debouncePoll_of_debounced_level {c : Cfg} {raw : Bool} {now : Nat} {b : BeamState} (hlevel : raw = b.debounced) :
    debouncePoll c raw now b =
      ({ lastRaw := raw, debounced := b.debounced, changeTs := stampAfter c raw now b }, noEdges) := by
  rcases debouncePoll_cases c raw now b with ⟨hcommit, _, _⟩ | ⟨_, h⟩
  · exact absurd hlevel hcommit
  · exact h

/-- Settles O45: a sample back at the debounced level commits nothing, and as it differs from the last level it is stamped with its
own time, like every other change. -/
theorem noiseIsDiscardedAndRestartsTheWindow : Obligations.NoiseIsDiscardedAndRestartsTheWindow := by
  unfold Obligations.NoiseIsDiscardedAndRestartsTheWindow
  intro raw now s hnow
  refine ⟨_, _, _, exec_debouncePoll raw now s, rfl, fun hpending hback => ?noise, fun hchange => ?restart⟩
  case noise =>
    have hchange : raw ≠ s.beam.lastRaw := hback ▸ hpending.symm
    rw [debouncePoll_of_debounced_level hback, stampAfter_of_change hnow hchange]
    exact ⟨rfl, rfl, rfl⟩
  case restart =>
    exact ⟨debouncePoll_lastRaw s.cfg raw now s.beam,
      (debouncePoll_changeTs s.cfg raw now s.beam).trans (stampAfter_of_change hnow hchange)⟩

end Sys2Proof.Machine

/-!
PROOFS. The lap timer (43_lap_timer.md): the answers of LAP_START and LAP_TICK, the arm of a beam break on an idle timer, and the
elapsed time split again into minutes and seconds.
-/
namespace Sys2Proof.Machine

/-- LAP_START's answer (43_lap_timer.md R162). -/
theorem exec_lapStart (now : Nat) (s : State) :
    exec (.lapStart now) s = .next { s with lap := lapStart s.cfg now s.lap, result := .none } := rfl

/-- LAP_TICK's answer (43_lap_timer.md R165). -/
theorem exec_lapTick (s : State) :
    exec .lapTick s = .next { s with lap := lapTick s.cfg s.lap, result := .none } := rfl

/-- LAP_UPDATE's answer (43_lap_timer.md R161). -/
theorem exec_lapUpdate (fall : Bool) (now : Nat) (s : State) :
    exec (.lapUpdate fall now) s = .next { s with lap := lapUpdate s.cfg fall now s.lap, result := .none } := rfl

/-- A time of `W` bits is recorded as it is. -/
theorem lapStart_of_lt {c : Cfg} {now : Nat} (l : LapState) (hnow : now < 2 ^ c.tsWidth) :
    lapStart c now l = { l with running := true, min := 0, sec := 0, tickRef := now } := by
  rw [lapStart, modW, Nat.mod_eq_of_lt hnow]

/-- A beam break on an idle timer runs the arm LAP_START (43_lap_timer.md R161). -/
theorem lapUpdate_true_of_idle (c : Cfg) (now : Nat) {l : LapState} (hidle : l.running = false) :
    lapUpdate c true now l = lapStart c now l :=
  if_pos ⟨rfl, hidle⟩

/-- Settles O20: a time of `W` bits is recorded without reduction, and the update of an idle timer on a beam break runs the arm
LAP_START. -/
theorem lapStartResetsAndRuns : Obligations.LapStartResetsAndRuns := by
  unfold Obligations.LapStartResetsAndRuns
  intro now s hnow
  refine ⟨?registers, fun hidle => ?idleUpdate⟩
  case registers => rw [exec_lapStart, lapStart_of_lt s.lap hnow]
  case idleUpdate => rw [exec_lapUpdate, exec_lapStart, lapUpdate_true_of_idle s.cfg now hidle]

/-- The minutes of an elapsed time in range are the quotient of its seconds (43_lap_timer.md R167). -/
theorem elapsedSeconds_div {c : Cfg} {l : LapState} (h : l.ElapsedInRange c) :
    elapsedSeconds c l / (c.secMax + 1) = l.min.val := by
  have hsec : l.sec.val < c.secMax + 1 := Nat.lt_succ_of_le h.1
  rw [elapsedSeconds, Nat.mul_add_div (Nat.succ_pos _), Nat.div_eq_of_lt hsec, Nat.add_zero]

/-- The seconds of an elapsed time in range are its remainder (43_lap_timer.md R167). -/
theorem elapsedSeconds_mod {c : Cfg} {l : LapState} (h : l.ElapsedInRange c) :
    elapsedSeconds c l % (c.secMax + 1) = l.sec.val := by
  have hsec : l.sec.val < c.secMax + 1 := Nat.lt_succ_of_le h.1
  rw [elapsedSeconds, Nat.mul_add_mod, Nat.mod_eq_of_lt hsec]

/-- Settles O23: a tick keeps the elapsed time in range, so its minutes and seconds are the quotient and the remainder of its
seconds, which are one more than before, modulo the range. -/
theorem lapTickCountsModulo6000 : Obligations.LapTickCountsModulo6000 := by
  unfold Obligations.LapTickCountsModulo6000
  intro s hrange
  have hticked := lapTick_inRange s.cfg s.lap hrange
  have hmin := elapsedSeconds_div hticked
  have hsec := elapsedSeconds_mod hticked
  rw [elapsed_lapTick s.cfg s.lap hrange] at hmin hsec
  refine ⟨_, exec_lapTick s, rfl, hmin.symm, hsec.symm, fun hsecMax hminMax => ?sourceBounds⟩
  case sourceBounds =>
    rw [elapsedSeconds, secondsRange, hsecMax, hminMax] at hmin hsec
    exact ⟨hmin.symm, hsec.symm⟩

end Sys2Proof.Machine

/-!
PROOFS. Exceptions (60_exceptions.md): no operation has a faulting case.
-/
namespace Sys2Proof.Machine

/-- Settles O9: each operation's arm of `exec` ends in `finish`, which answers a next state; `exec_next` splits them. -/
theorem everyOperationAnswersANextState : Obligations.EveryOperationAnswersANextState := by
  unfold Obligations.EveryOperationAnswersANextState
  intro i s
  exact exec_next i s

end Sys2Proof.Machine

/-!
PROOFS. Stimulus lines (30_encoding.md): the encoder and the decoder are inverse to each other.
-/
namespace Sys2Proof

/-- A sequence of decoder steps succeeds when the first does and the rest does on its value. -/
theorem except_bind_eq_ok {ε α β : Type} {x : Except ε α} {f : α → Except ε β} {r : β} :
    x >>= f = .ok r ↔ ∃ a, x = .ok a ∧ f a = .ok r := by
  cases x with
  | error e => simp [bind, Except.bind]
  | ok a => simp [bind, Except.bind]

theorem except_pure_eq_ok {ε α : Type} {a r : α} : (pure a : Except ε α) = .ok r ↔ r = a := by
  simp [pure, Except.pure, eq_comm]

/-- A decoder step that succeeds hands its value on. -/
theorem except_ok_bind {ε α β : Type} (a : α) (f : α → Except ε β) : (.ok a >>= f) = f a := rfl

theorem channelOf_eq_ok {b : Byte} {ch : Channel} : channelOf b = .ok ch ↔ b = channelByte ch :=
  ⟨fun h => (channelOf_ok h).symm, fun h => h ▸ channelOf_channelByte ch⟩

theorem bitOf_eq_ok {b : Byte} {v : Bool} : bitOf b = .ok v ↔ b = bitByte v :=
  ⟨fun h => (bitOf_ok h).symm, fun h => h ▸ bitOf_bitByte v⟩

theorem directionOf_eq_ok {b : Byte} {d : Direction} : directionOf b = .ok d ↔ b = directionByte d :=
  ⟨fun h => (directionOf_ok h).symm, fun h => h ▸ directionOf_directionByte d⟩

theorem digitOf_eq_ok {b : Byte} {d : Digit} : digitOf b = .ok d ↔ b = boundedByte d :=
  ⟨fun h => (boundedOf_ok h).symm, fun h => h ▸ digitOf_boundedByte d⟩

theorem placeOf_eq_ok {b : Byte} {p : Place} : placeOf b = .ok p ↔ b = boundedByte p :=
  ⟨fun h => (boundedOf_ok h).symm, fun h => h ▸ placeOf_boundedByte p⟩

theorem minutesOf_eq_ok {b : Byte} {m : TwoDigits} : minutesOf b = .ok m ↔ b = boundedByte m :=
  ⟨fun h => (boundedOf_ok h).symm, fun h => h ▸ minutesOf_boundedByte m⟩

theorem secondsOf_eq_ok {b : Byte} {s : TwoDigits} : secondsOf b = .ok s ↔ b = boundedByte s ∧ s.val ≤ 59 := by
  refine ⟨fun h => ?_, fun ⟨hb, hs⟩ => hb ▸ secondsOf_boundedByte hs⟩
  obtain ⟨hb, hs⟩ := secondsOf_ok h
  exact ⟨hb.symm, hs⟩

theorem unused_eq_ok {bs : List Byte} {u : Unit} : unused bs = .ok u ↔ bs = List.replicate bs.length 0#8 := by
  rw [List.eq_replicate_length]
  refine ⟨unused_ok, fun h => ?_⟩
  have hall : bs.all (fun b => b == 0#8) = true := by simpa using h
  rw [unused, if_pos hall]

/-- A line that ends in the bytes of a time is read as the operation with that time, when the time fits a line. -/
theorem decode_timeBytes {w a : Byte} {t : Nat} {mk : Nat → Instr} (ht : timeFits t = true)
    (hread : ∀ b c d e f g h j, decodeFirst w a b c d e f g h j = .ok (mk (timeOf [b, c, d, e, f, g, h, j]))) :
    decode ([w, 0, a] ++ timeBytes 8 t) = .ok (mk t) := by
  have htime := timeOf_timeBytes 8 t ((timeFits_iff t).mp ht)
  obtain ⟨b, c, d, e, f, g, h, j, hbytes⟩ := timeBytes_eight t
  rw [hbytes] at htime ⊢
  rw [← htime]
  exact hread b c d e f g h j

/-- The first byte of a brightness command is no operation number and no other command byte (30_encoding.md R84). -/
theorem decodeFirst_ctrl {w a b c d e f g h i : Byte} (hw : w.extractLsb' 3 5 = 0b10001#5) :
    decodeFirst w a b c d e f g h i = (do
      let ch ← channelOf a; unused [b, c, d, e, f, g, h, i]; pure (.cmdCtrl ch (w.extractLsb' 0 3))) := by
  have hrange : ∀ v : Byte, v.extractLsb' 3 5 = 0b10001#5 → 0x88 ≤ v.toNat ∧ v.toNat < 0x90 := by decide
  obtain ⟨hlo, hhi⟩ := hrange w hw
  unfold decodeFirst
  split
  all_goals try omega
  rw [if_neg (by omega), if_pos hw]

/-- The place byte of a data line is not 0, and one more than the place (30_encoding.md R81). -/
theorem placeByte_ne_zero (i : Place) : boundedByte i + 1 ≠ 0#8 := by revert i; decide

/-- The line of a data byte is read back: bit 7 and the pattern from its word, the place from its place byte. -/
theorem decode_data {c : Bool} {seg : Segments} {ch : Channel} {i : Place} (h : (Instr.data ch i c seg).wellFormed = true) :
    decode (encode (.data ch i c seg)) = .ok (.data ch i c seg) := by
  have hcolon : (c && !decide (i = 1)) = false := by
    cases c
    · rfl
    · simpa [Instr.wellFormed] using h
  have hplace : boundedOf 4 .badPlace (boundedByte i + 1 - 1#8) = .ok i := by
    rw [show boundedByte i + 1 - 1#8 = boundedByte i from BitVec.add_sub_cancel _ _]
    exact boundedOf_boundedByte (by decide) _ i
  simp only [encode, decode, if_neg (placeByte_ne_zero i), decodeData, except_bind_eq_ok]
  refine ⟨i, hplace, ch, channelOf_channelByte ch, (), rfl, ?_⟩
  rw [dataWord_bit7, hcolon, dataWord_segments]
  rfl

/-- The decoder reads every well-formed operation back from its line: the operands from their bytes, a time from its eight. -/
theorem decode_encode (i : Instr) (h : i.wellFormed = true) : decode (encode i) = .ok i := by
  cases i with
  | data ch i c seg => exact decode_data h
  | cmdCtrl ch br =>
    refine (decodeFirst_ctrl (ctrlWord_kind br)).trans ?_
    rw [ctrlWord_brightness, channelOf_channelByte]
    rfl
  | delay ch n => exact decode_timeBytes (mk := .delay ch) h (by simp [decodeFirst])
  | debouncePoll raw now => exact decode_timeBytes (mk := .debouncePoll raw) h (by simp [decodeFirst])
  | lapUpdate fall now => exact decode_timeBytes (mk := .lapUpdate fall) h (by simp [decodeFirst])
  | lapStart now => exact decode_timeBytes (mk := .lapStart) h fun _ _ _ _ _ _ _ _ => rfl
  | lapComplete now => exact decode_timeBytes (mk := .lapComplete) h fun _ _ _ _ _ _ _ _ => rfl
  | step raw now => exact decode_timeBytes (mk := .step raw) h (by simp [decodeFirst])
  | formatMmss m s c =>
    have hs : secondsOf (boundedByte s) = .ok s := secondsOf_boundedByte (of_decide_eq_true h)
    simp [encode, decode, decodeFirst, except_ok_bind, unused, hs]
  | _ => simp [encode, decode, decodeFirst, except_ok_bind, unused]

theorem timeFits_timeOf {bs : List Byte} (h : bs.length = 8) : timeFits (timeOf bs) = true :=
  (timeFits_iff _).mpr (h ▸ timeOf_lt bs)

/-- A line at place 0 that decodes is the line of its operation. The rows of the decoder are taken together by their operands. -/
theorem decodeFirst_ok {w a b c d e f g h i : Byte} {j : Instr} (hj : decodeFirst w a b c d e f g h i = .ok j) :
    j.wellFormed = true ∧ encode j = [w, 0, a, b, c, d, e, f, g, h, i] := by
  have hword {n : Nat} (hw : w.toNat = n) : w = BitVec.ofNat 8 n := by simp [← hw]
  have htime : timeFits (timeOf [b, c, d, e, f, g, h, i]) = true := timeFits_timeOf rfl
  have hbytes : timeBytes 8 (timeOf [b, c, d, e, f, g, h, i]) = [b, c, d, e, f, g, h, i] :=
    timeBytes_timeOf [b, c, d, e, f, g, h, i]
  unfold decodeFirst at hj
  split at hj
  -- A brightness command.
  case h_25 =>
    split at hj
    · cases hj
    · split at hj
      next hctrl =>
        simp only [except_bind_eq_ok, channelOf_eq_ok, unused_eq_ok, except_pure_eq_ok] at hj
        obtain ⟨_, rfl, _, ⟨⟩, rfl⟩ := hj
        exact ⟨rfl, by rw [encode, ctrlWord_of_byte hctrl]; rfl⟩
      · cases hj
  all_goals simp only [except_bind_eq_ok, except_pure_eq_ok, channelOf_eq_ok, bitOf_eq_ok, directionOf_eq_ok,
    digitOf_eq_ok, placeOf_eq_ok, minutesOf_eq_ok, secondsOf_eq_ok, unused_eq_ok] at hj
  -- A channel and a level or direction.
  case h_1 hw | h_2 hw | h_3 hw =>
    obtain ⟨_, rfl, _, rfl, _, ⟨⟩, rfl⟩ := hj
    exact ⟨rfl, by rw [hword hw]; rfl⟩
  -- One operand, a channel or a digit; WRITE_BYTE's byte stands as it is.
  case h_5 hw | h_6 hw | h_7 hw | h_8 hw | h_10 hw | h_23 hw | h_24 hw =>
    obtain ⟨_, rfl, _, ⟨⟩, rfl⟩ := hj
    exact ⟨rfl, by rw [hword hw]; rfl⟩
  -- No operand.
  case h_16 hw | h_17 hw | h_19 hw | h_20 hw | h_22 hw =>
    obtain ⟨_, ⟨⟩, rfl⟩ := hj
    exact ⟨rfl, by rw [hword hw]; rfl⟩
  -- An operand and a time.
  case h_4 hw | h_12 hw | h_13 hw | h_21 hw =>
    obtain ⟨_, rfl, rfl⟩ := hj
    exact ⟨htime, by rw [encode, hbytes, hword hw]; rfl⟩
  -- A time alone.
  case h_14 hw | h_15 hw =>
    obtain ⟨_, ⟨⟩, rfl⟩ := hj
    exact ⟨htime, by rw [encode, hbytes, hword hw]; rfl⟩
  -- WRITE_FRAME.
  case h_9 hw =>
    obtain ⟨_, rfl, _, rfl, _, rfl, _, rfl, _, rfl, _, rfl, _, ⟨⟩, rfl⟩ := hj
    exact ⟨rfl, by rw [hword hw]; rfl⟩
  -- SEGBYTE.
  case h_11 hw =>
    obtain ⟨_, rfl, _, rfl, _, rfl, _, ⟨⟩, rfl⟩ := hj
    exact ⟨rfl, by rw [hword hw]; rfl⟩
  -- FORMAT_MMSS, whose seconds are checked.
  case h_18 hw =>
    obtain ⟨_, rfl, _, ⟨rfl, hs⟩, _, rfl, _, ⟨⟩, rfl⟩ := hj
    exact ⟨decide_eq_true hs, by rw [hword hw]; rfl⟩

/-- A line of a data byte that decodes is the line of that byte. -/
theorem decodeData_ok {w p a b c d e f g h i : Byte} {j : Instr} (hj : decodeData w p a b c d e f g h i = .ok j) :
    j.wellFormed = true ∧ encode j = [w, p, a, b, c, d, e, f, g, h, i] := by
  simp only [decodeData, except_bind_eq_ok, channelOf_eq_ok, unused_eq_ok] at hj
  obtain ⟨place, hplace, ch, rfl, _, ⟨⟩, hj⟩ := hj
  split at hj
  · cases hj
  next hcolon =>
    cases hj
    have hp : boundedByte place + 1 = p := by
      rw [boundedOf_ok hplace]
      exact BitVec.sub_add_cancel _ _
    refine ⟨?_, by rw [encode, dataWord_of_byte, hp]; rfl⟩
    simpa [Instr.wellFormed, imp_iff_not_or] using hcolon

/-- A line that decodes is the line of its operation, which is well formed. -/
theorem decode_ok {bytes : List Byte} {i : Instr} (hi : decode bytes = .ok i) : i.wellFormed = true ∧ encode i = bytes := by
  unfold decode at hi
  split at hi
  next w p a b c d e f g h j =>
    split at hi
    next hp => exact hp ▸ decodeFirst_ok hi
    next => exact decodeData_ok hi
  next => cases hi

/-- Settles O6: `decode_encode`, whose cases are the operations. -/
theorem decodeOfEncodeGivesTheOperationBack : Obligations.DecodeOfEncodeGivesTheOperationBack := by
  unfold Obligations.DecodeOfEncodeGivesTheOperationBack
  exact decode_encode

/-- Settles O7: `decode_ok`, whose cases are the rows of the decoder. -/
theorem eachOperationHasOneLine : Obligations.EachOperationHasOneLine := by
  unfold Obligations.EachOperationHasOneLine
  exact fun _ _ => decode_ok

/-- Settles O5: each of the ten lines is the line of a well-formed operation, so the decoder reads that operation back. -/
theorem specWordsDecode : Obligations.SpecWordsDecode := by
  unfold Obligations.SpecWordsDecode
  exact ⟨decode_encode (.clkw .B true) rfl, decode_encode (.writeByte .A 0x8F) rfl, decode_encode (.encode 8) rfl,
    decode_encode (.debouncePoll false 1000) rfl, decode_encode .lapTick rfl, decode_encode (.step true 1000) rfl,
    decode_encode (.cmdData .A) rfl, decode_encode (.cmdAddr .B) rfl, decode_encode (.cmdCtrl .A 7) rfl,
    decode_encode (.data .A 1 true 0x06) rfl⟩

end Sys2Proof

/-!
PROOFS. What an operation does to the state, one case for each kind of operation, and what it leaves alone.
-/
namespace Sys2Proof.Machine

/-- What the operation `i` makes of the state: driver operations and RENDER put events on the pins, the operations that only
return a result write nothing else, and the others write the registers that their rules name. -/
inductive Effect : Instr → State → State → Prop
  | driver {i : Instr} {ch : Channel} {es : List PinEvent} {s : State} (hi : driverChannel i = some ch)
      (hes : ∀ e ∈ es, channelOfEvent e = ch) : Effect i s (driven es s)
  | query {i : Instr} {r : Result} {s : State} : Effect i s { s with result := r }
  | debouncePoll {raw : Bool} {now : Nat} {r : Result} {s : State} :
      Effect (.debouncePoll raw now) s { s with beam := (debouncePoll s.cfg raw now s.beam).1, result := r }
  | lapUpdate {fall : Bool} {now : Nat} {s : State} :
      Effect (.lapUpdate fall now) s { s with lap := lapUpdate s.cfg fall now s.lap, result := .none }
  | lapStart {now : Nat} {s : State} :
      Effect (.lapStart now) s { s with lap := lapStart s.cfg now s.lap, result := .none }
  | lapComplete {now : Nat} {s : State} :
      Effect (.lapComplete now) s { s with lap := lapComplete s.cfg now s.lap, result := .none }
  | lapTick {s : State} : Effect .lapTick s { s with lap := lapTick s.cfg s.lap, result := .none }
  | render {es : List PinEvent} {s : State} (hes : es = renderEvents s.cfg s.lap) : Effect .render s (driven es s)
  | init {s : State} : Effect .init s { initState s with result := .none }
  | step {raw : Bool} {now : Nat} {s : State} : Effect (.step raw now) s { stepState raw now s with result := .none }

/-- Everything an operation can do. -/
theorem exec_effect {i : Instr} {s t : State} (h : exec i s = .next t) : Effect i s t := by
  cases hd : driverChannel i with
  | some ch =>
    obtain ⟨es, hes, hexec⟩ := exec_driver (c := s.cfg) hd
    rw [hexec s rfl] at h
    cases h
    exact .driver hd hes
  | none =>
    cases i with
    | encode | segbyte | lapHold | formatMmss | statusRead => cases h; exact .query
    | debouncePoll => cases h; exact .debouncePoll
    | lapUpdate => cases h; exact .lapUpdate
    | lapStart => cases h; exact .lapStart
    | lapComplete => cases h; exact .lapComplete
    | lapTick => cases h; exact .lapTick
    | render => cases h; exact .render rfl
    | init => cases h; exact .init
    | step => cases h; exact .step
    | _ => cases hd

/-- Settles O31: `exec_frame` gives the fields that no operation writes; each effect changes only the registers of its own
operation. -/
theorem onlyTheNamedOperationsWriteEachGroup : Obligations.OnlyTheNamedOperationsWriteEachGroup := by
  unfold Obligations.OnlyTheNamedOperationsWriteEachGroup
  intro i s t h
  obtain ⟨hcfg, hpending, hpolls, hpowerUps, _⟩ := exec_frame h
  refine ⟨hcfg, hpending, hpolls, hpowerUps, ?_⟩
  cases exec_effect h with
  | driver hi => simp [hi, driven]
  | query => simp
  | debouncePoll => simp
  | lapUpdate | lapStart | lapComplete | lapTick => simp [timerOperation]
  | render => simp [driven]
  | init => simp
  | step => simp

/-- Two timers with the same last lap, valid bit and count (43_lap_timer.md R168). -/
def LapState.SameRecord (l m : LapState) : Prop :=
  l.lastMin = m.lastMin ∧ l.lastSec = m.lastSec ∧ l.valid = m.valid ∧ l.count = m.count

theorem LapState.SameRecord.refl (l : LapState) : l.SameRecord l := ⟨rfl, rfl, rfl, rfl⟩

theorem lapTick_sameRecord (c : Cfg) (l : LapState) : (lapTick c l).SameRecord l := by
  obtain ⟨_, hmin, hsec, hvalid, hcount, _⟩ := lapTick_fields c l
  exact ⟨hmin, hsec, hvalid, hcount⟩

/-- An update completes a lap or keeps the record: LAP_START, LAP_TICK and LAP_HOLD do not write it. -/
theorem lapUpdate_completes_or_sameRecord (c : Cfg) (fall : Bool) (now : Nat) (l : LapState) :
    (fall = true ∧ l.running = true ∧ lapUpdate c fall now l = lapComplete c now l) ∨
      (lapUpdate c fall now l).SameRecord l := by
  rcases lapUpdate_cases c fall now l with ⟨_, _, e⟩ | hcomplete | ⟨_, _, _, e⟩ | ⟨_, _, e⟩
  · rw [e]
    exact .inr (LapState.SameRecord.refl l)
  · exact .inl hcomplete
  · rw [e]
    exact .inr (lapTick_sameRecord c l)
  · rw [e]
    exact .inr (LapState.SameRecord.refl l)

/-- Settles O32: of the effects, only LAP_COMPLETE, INIT and the updates that complete a lap change the record; the update in a
STEP reads the fall that its poll reports. -/
theorem onlyACompletedLapWritesTheLastLap : Obligations.OnlyACompletedLapWritesTheLastLap := by
  unfold Obligations.OnlyACompletedLapWritesTheLastLap
  intro i s t h hchange
  cases exec_effect h with
  | driver | query | debouncePoll | lapStart | render => exact absurd (LapState.SameRecord.refl s.lap) hchange
  | lapTick => exact absurd (lapTick_sameRecord s.cfg s.lap) hchange
  | lapComplete => exact .inl ⟨_, rfl⟩
  | init => exact .inr (.inr (.inl rfl))
  | lapUpdate =>
    obtain ⟨hfall, hrunning, _⟩ := (lapUpdate_completes_or_sameRecord _ _ _ _).resolve_right hchange
    exact .inr (.inl ⟨_, by rw [hfall], hrunning⟩)
  | @step raw now =>
    refine .inr (.inr (.inr ⟨raw, now, rfl, ?_⟩))
    cases hinit : s.initialized with
    | false => exact .inl rfl
    | true =>
      simp only [stepState_lap, lazyInit_of_initialized hinit] at hchange
      obtain ⟨hfall, hrunning, _⟩ := (lapUpdate_completes_or_sameRecord _ _ _ _).resolve_right hchange
      have hrise : (debouncePoll s.cfg raw now s.beam).2.rise = false :=
        Bool.eq_false_iff.mpr fun hrise => debouncePoll_not_both s.cfg raw now s.beam ⟨hfall, hrise⟩
      exact .inr ⟨hrunning, _, exec_debouncePoll raw now s, by rw [hfall, hrise]⟩

/-- What one event does to the pins of a channel: it moves the pins of its own channel only. -/
theorem applyEvent_get (e : PinEvent) (p : PerChannel PinRegs) (ch : Channel) :
    (applyEvent e p).get ch = if channelOfEvent e = ch then pinAfter (p.get ch) e else p.get ch := by
  cases e with
  | clk k | dio k | dir k | delay k => cases k <;> cases ch <;> rfl

/-- The events of one channel (20_memory.md R51). -/
def eventsOn (ch : Channel) (es : List PinEvent) : List PinEvent := es.filter (fun e => decide (channelOfEvent e = ch))

@[simp] theorem eventsOn_append (ch : Channel) (es fs : List PinEvent) :
    eventsOn ch (es ++ fs) = eventsOn ch es ++ eventsOn ch fs := List.filter_append es fs

theorem eventsOn_of_own {es : List PinEvent} {ch : Channel} (hes : ∀ e ∈ es, channelOfEvent e = ch) : eventsOn ch es = es :=
  List.filter_eq_self.mpr (by simpa using hes)

theorem eventsOn_of_other {es : List PinEvent} {ch : Channel} (hes : ∀ e ∈ es, channelOfEvent e ≠ ch) :
    eventsOn ch es = [] :=
  List.filter_eq_nil_iff.mpr (by simpa using hes)

/-- The pins of a channel follow the events of that channel, one after the other (10_state.md section 5). -/
theorem applyEvents_get (es : List PinEvent) (p : PerChannel PinRegs) (ch : Channel) :
    (applyEvents es p).get ch = (eventsOn ch es).foldl pinAfter (p.get ch) := by
  induction es generalizing p with
  | nil => rfl
  | cons e es ih =>
    rw [applyEvents, ih, applyEvent_get, eventsOn, eventsOn]
    by_cases he : channelOfEvent e = ch <;> simp [he]

/-- Events of the other channel do not move the pins of this one. -/
theorem applyEvents_get_of_other {es : List PinEvent} {ch : Channel} (hes : ∀ e ∈ es, channelOfEvent e ≠ ch)
    (p : PerChannel PinRegs) : (applyEvents es p).get ch = p.get ch := by
  rw [applyEvents_get, eventsOn_of_other hes, List.foldl_nil]

/-- Settles O35: `exec_frame` gives the appended events, and `applyEvents_get` the pins that they leave. -/
theorem traceIsAppendedAndExplainsThePins : Obligations.TraceIsAppendedAndExplainsThePins := by
  unfold Obligations.TraceIsAppendedAndExplainsThePins
  intro i s t h
  obtain ⟨_, _, _, _, es, htrace, hpins⟩ := exec_frame h
  exact ⟨es, htrace, fun ch => hpins ▸ applyEvents_get es s.pins ch⟩

/-- Settles O33: a driver operation's events are all of its channel, so they do not move the other channel's pins. -/
theorem driverOperationsTouchOneChannel : Obligations.DriverOperationsTouchOneChannel := by
  unfold Obligations.DriverOperationsTouchOneChannel
  intro i ch s t hi h
  obtain ⟨es, hes, hexec⟩ := exec_driver (c := s.cfg) hi
  rw [hexec s rfl] at h
  cases h
  have hother : ∀ e ∈ es, channelOfEvent e ≠ ch.other := fun e he hch => ch.other_ne (hch.symm.trans (hes e he))
  exact ⟨applyEvents_get_of_other hother s.pins, rfl, rfl, rfl, es, rfl, hes⟩

/-- Settles O34: the events of `exec_driver` are chosen for the configuration, before the state. -/
theorem driverEventsDependOnOperandsAndCfgOnly : Obligations.DriverEventsDependOnOperandsAndCfgOnly := by
  unfold Obligations.DriverEventsDependOnOperandsAndCfgOnly
  intro i ch s1 s2 hi hcfg
  obtain ⟨es, _, hexec⟩ := exec_driver (c := s1.cfg) hi
  exact ⟨_, _, es, hexec s1 rfl, hexec s2 hcfg.symm, rfl, rfl, rfl, rfl⟩

end Sys2Proof.Machine

/-!
PROOFS. The machine step: the outside action it takes, when it stops, and the invariants it keeps (10_state.md R43).
-/
namespace Sys2Proof.Machine

/-- A line of an operation runs the operation, the line taken off the queue (30_encoding.md R93). -/
theorem step_of_line {s : State} {bytes : List Byte} {rest : List Stimulus} {i : Instr}
    (hpending : s.pending = .line bytes :: rest) (hi : decode bytes = .ok i) :
    step s = exec i { s with pending := rest } := by
  simp only [step, takeNext, hpending, requestOf_ok hi]

theorem requestOf_error {bytes : List Byte} {r : Reject} (hr : decode bytes = .error r) : requestOf bytes = .reject r := by
  simp only [requestOf, hr]

/-- A line of no operation is refused with the decoder's reason (30_encoding.md R92). -/
theorem step_of_undecodable {s : State} {bytes : List Byte} {rest : List Stimulus} {r : Reject}
    (hpending : s.pending = .line bytes :: rest) (hr : decode bytes = .error r) : step s = .refused (.undecodable r) := by
  simp only [step, takeNext, hpending, requestOf_error hr]

theorem step_of_reset {s : State} {rest : List Stimulus} (hpending : s.pending = .reset :: rest) :
    step s = .next (hardwareReset { s with pending := rest }) := by
  simp only [step, takeNext, hpending]

/-- With nothing placed the machine polls, on the environment's samples (00_scope.md R13). -/
theorem step_of_nothing_placed {s : State} (hpending : s.pending = []) :
    step s = exec (.step (Config.sampledRaw s.polls) (Config.sampledNow s.polls)) { s with polls := s.polls + 1 } := by
  simp only [step, takeNext, hpending]

/-- A step that answers no next state met a line of no operation. -/
theorem step_next_or_undecodable (s : State) :
    (∃ t, step s = .next t) ∨
      ∃ bytes rest r, s.pending = .line bytes :: rest ∧ decode bytes = .error r ∧ step s = .refused (.undecodable r) := by
  cases hpending : s.pending with
  | nil =>
    rw [step_of_nothing_placed hpending]
    exact .inl (exec_next _ _)
  | cons x rest =>
    cases x with
    | reset => exact .inl ⟨_, step_of_reset hpending⟩
    | line bytes =>
      cases hd : decode bytes with
      | ok i =>
        rw [step_of_line hpending hd]
        exact .inl (exec_next _ _)
      | error r => exact .inr ⟨bytes, rest, r, rfl, hd, step_of_undecodable hpending hd⟩

/-- Settles O4: every step answers a next state, or it met a line that the decoder rejects. -/
theorem stepStopsExactlyOnUndecodableLines : Obligations.StepStopsExactlyOnUndecodableLines := by
  unfold Obligations.StepStopsExactlyOnUndecodableLines
  refine ⟨fun _ f => f.casesOn, fun s q => ⟨fun hq => ?_, ?_⟩⟩
  · rcases step_next_or_undecodable s with ⟨t, ht⟩ | ⟨bytes, rest, r, hpending, hr, hstep⟩
    · cases ht.symm.trans hq
    · cases hstep.symm.trans hq
      exact ⟨bytes, rest, r, hpending, hr, rfl⟩
  · rintro ⟨bytes, rest, r, hpending, hr, rfl⟩
    exact step_of_undecodable hpending hr

/-- Settles O3: the three cases of the queue; the line that is placed is read back by `decode_encode`. -/
theorem stepRunsTheDecodedLine : Obligations.StepRunsTheDecodedLine := by
  unfold Obligations.StepRunsTheDecodedLine
  exact ⟨fun _ _ _ _ => step_of_line,
    fun s i hi => step_of_line (placeLine_pending (encode i) s) (decode_encode i hi),
    fun _ hpending => ⟨_, _, step_of_nothing_placed hpending⟩⟩

/-- Settles O2: the registers after the reset are those of the environment's power-up, cut to their widths. -/
theorem resetStimulusLeavesRegistersUnspecified : Obligations.ResetStimulusLeavesRegistersUnspecified := by
  unfold Obligations.ResetStimulusLeavesRegistersUnspecified
  exact fun s rest hpending => ⟨(Config.powerUp s.powerUps).fit s.cfg, step_of_reset hpending⟩

/-- Settles O1: the state after reset is built with these values. -/
theorem resetIsUninitialisedWithEmptyTrace : Obligations.ResetIsUninitialisedWithEmptyTrace := by
  unfold Obligations.ResetIsUninitialisedWithEmptyTrace
  exact ⟨fun c => ⟨resetWith_initialized c, resetWith_trace c, resetWith_cfg c⟩, rfl⟩

/-- A property that the queue and its counter do not matter to, and that hardware reset and every operation keep, is kept by
every step. -/
theorem step_keeps {P : State → Prop} (hqueue : ∀ s rest, P s → P { s with pending := rest })
    (hpolls : ∀ s n, P s → P { s with polls := n }) (hreset : ∀ s, P s → P (hardwareReset s))
    (hexec : ∀ i s t, exec i s = .next t → P s → P t) {s t : State} (h : step s = .next t) (hs : P s) : P t := by
  cases hpending : s.pending with
  | nil => exact hexec _ _ t (step_of_nothing_placed hpending ▸ h) (hpolls s _ hs)
  | cons x rest =>
    cases x with
    | reset =>
      cases (step_of_reset hpending).symm.trans h
      exact hreset _ (hqueue s rest hs)
    | line bytes =>
      cases hd : decode bytes with
      | ok i => exact hexec i _ t (step_of_line hpending hd ▸ h) (hqueue s rest hs)
      | error r => cases (step_of_undecodable hpending hd).symm.trans h

theorem lapComplete_valid (c : Cfg) (now : Nat) (l : LapState) : (lapComplete c now l).valid = true := by
  unfold lapComplete
  split <;> rfl

/-- The record of a timer that completed no lap is empty (10_state.md R43(b)). -/
def LapState.EmptyUnlessValid (l : LapState) : Prop := l.valid = false → l.count = 0 ∧ l.lastMin = 0 ∧ l.lastSec = 0

theorem LapState.SameRecord.emptyUnlessValid {l m : LapState} (h : l.SameRecord m) (hm : m.EmptyUnlessValid) :
    l.EmptyUnlessValid := by
  obtain ⟨hmin, hsec, hvalid, hcount⟩ := h
  rw [LapState.EmptyUnlessValid, hmin, hsec, hvalid, hcount]
  exact hm

theorem lapUpdate_emptyUnlessValid {c : Cfg} {fall : Bool} {now : Nat} {l : LapState} (h : l.EmptyUnlessValid) :
    (lapUpdate c fall now l).EmptyUnlessValid := by
  rcases lapUpdate_completes_or_sameRecord c fall now l with ⟨_, _, e⟩ | hsame
  · rw [e]
    exact fun hvalid => absurd hvalid (by simp [lapComplete_valid])
  · exact hsame.emptyUnlessValid h

/-- The elapsed time and the last lap are in range (10_state.md R43(a)). -/
def LapState.InRange (c : Cfg) (l : LapState) : Prop :=
  l.ElapsedInRange c ∧ l.lastSec.val ≤ c.secMax ∧ l.lastMin.val ≤ c.minMax

theorem lapTick_allInRange {c : Cfg} {l : LapState} (h : l.InRange c) : (lapTick c l).InRange c := by
  obtain ⟨helapsed, hlast⟩ := h
  obtain ⟨_, hmin, hsec, _⟩ := lapTick_fields c l
  refine ⟨lapTick_inRange c l helapsed, ?_⟩
  rw [hmin, hsec]
  exact hlast

theorem initLap_emptyUnlessValid (l : LapState) : (initLap l).EmptyUnlessValid := fun _ => ⟨rfl, rfl, rfl⟩

theorem initLap_inRange (c : Cfg) (l : LapState) : (initLap l).InRange c :=
  ⟨⟨Nat.zero_le _, Nat.zero_le _⟩, Nat.zero_le _, Nat.zero_le _⟩

/-- What holds of the timer registers after INIT, and held before lazy initialisation if the state was initialised, holds after
lazy initialisation. -/
theorem lazyInit_lap {P : LapState → Prop} {s : State} (hinit : P (initLap s.lap)) (hs : s.initialized = true → P s.lap) :
    P (lazyInit s).lap := by
  cases hi : s.initialized with
  | true => rw [lazyInit_of_initialized hi]; exact hs hi
  | false => rw [lazyInit_of_not hi]; exact hinit

theorem exec_keeps_lapRecordInv {i : Instr} {s t : State} (h : exec i s = .next t) (hs : s.LapRecordInv) :
    t.LapRecordInv := by
  cases exec_effect h with
  | driver | query | debouncePoll | lapStart | render => exact hs
  | lapUpdate => exact fun hinit => lapUpdate_emptyUnlessValid (hs hinit)
  | lapComplete => exact fun _ hvalid => absurd hvalid (by simp [lapComplete_valid])
  | lapTick => exact fun hinit => (lapTick_sameRecord s.cfg s.lap).emptyUnlessValid (hs hinit)
  | init => exact fun _ => initLap_emptyUnlessValid s.lap
  | step =>
    intro _
    simp only [stepState_lap]
    exact lapUpdate_emptyUnlessValid (lazyInit_lap (initLap_emptyUnlessValid s.lap) hs)

theorem exec_keeps_rangeInv {i : Instr} {s t : State} (h : exec i s = .next t) (hs : s.RangeInv) : t.RangeInv := by
  cases exec_effect h with
  | driver | query | debouncePoll | render => exact hs
  | lapUpdate =>
    intro hinit
    obtain ⟨helapsed, hlast⟩ := hs hinit
    exact lapUpdate_inRange _ _ _ _ helapsed hlast
  | lapStart => exact fun hinit => ⟨⟨Nat.zero_le _, Nat.zero_le _⟩, (hs hinit).2⟩
  | lapComplete => exact fun hinit => lapComplete_inRange _ _ _ (hs hinit).1
  | lapTick => exact fun hinit => lapTick_allInRange (hs hinit)
  | init => exact fun _ => initLap_inRange s.cfg s.lap
  | step =>
    intro _
    obtain ⟨helapsed, hlast⟩ := lazyInit_lap (P := LapState.InRange s.cfg) (initLap_inRange s.cfg s.lap) hs
    simp only [stepState_lap, stepState_cfg]
    exact lapUpdate_inRange _ _ _ _ helapsed hlast

theorem exec_keeps_widthInv {i : Instr} {s t : State} (h : exec i s = .next t) (hs : s.WidthInv) : t.WidthInv := by
  have hfull := hs
  obtain ⟨hstamp, href, hcount⟩ := hs
  cases exec_effect h with
  | driver | query | render => exact hfull
  | debouncePoll => exact ⟨debouncePoll_width _ _ _ _ hstamp, href, hcount⟩
  | lapUpdate => exact ⟨hstamp, lapUpdate_width _ _ _ _ ⟨href, hcount⟩⟩
  | lapStart => exact ⟨hstamp, modW_lt _ _, hcount⟩
  | lapComplete => exact ⟨hstamp, lapComplete_width _ _ _ ⟨href, hcount⟩⟩
  | lapTick =>
    obtain ⟨_, _, _, _, hcount', href'⟩ := lapTick_fields s.cfg s.lap
    exact ⟨hstamp, href'.symm ▸ addW_lt _ _ _, hcount'.symm ▸ hcount⟩
  | init => exact ⟨hstamp, href, Nat.two_pow_pos _⟩
  | step =>
    have hstamp' : (lazyInit s).beam.changeTs < 2 ^ s.cfg.tsWidth := by
      unfold lazyInit
      split <;> exact hstamp
    have hlap' := lazyInit_lap (P := fun l => l.tickRef < 2 ^ s.cfg.tsWidth ∧ l.count < 2 ^ s.cfg.lapCountWidth)
      (s := s) ⟨href, Nat.two_pow_pos _⟩ (fun _ => ⟨href, hcount⟩)
    simp only [State.WidthInv, stepState_beam, stepState_lap, stepState_cfg]
    exact ⟨debouncePoll_width _ _ _ _ hstamp', lapUpdate_width _ _ _ _ hlap'⟩

theorem hardwareReset_widthInv (s : State) : (hardwareReset s).WidthInv :=
  ⟨modW_lt _ _, modW_lt _ _, Nat.mod_lt _ (Nat.two_pow_pos _)⟩

/-- Settles O58: each of the three invariants is kept by every operation; hardware reset clears S.initialized and cuts the free
registers to their widths. -/
theorem stepKeepsLapRecordConsistent : Obligations.StepKeepsLapRecordConsistent := by
  unfold Obligations.StepKeepsLapRecordConsistent
  intro s t h
  refine ⟨fun hs => ?lapRecord, fun hs => ?range, fun hs => ?width⟩
  case lapRecord =>
    exact step_keeps (fun _ _ h => h) (fun _ _ h => h) (fun _ _ hinit => absurd hinit Bool.false_ne_true)
      (fun _ _ _ => exec_keeps_lapRecordInv) h hs
  case range =>
    exact step_keeps (fun _ _ h => h) (fun _ _ h => h) (fun _ _ hinit => absurd hinit Bool.false_ne_true)
      (fun _ _ _ => exec_keeps_rangeInv) h hs
  case width =>
    exact step_keeps (fun _ _ h => h) (fun _ _ h => h) (fun s _ => hardwareReset_widthInv s)
      (fun _ _ _ => exec_keeps_widthInv) h hs

theorem busIdle_of_result {s : State} (r : Result) (h : s.BusIdle) : State.BusIdle { s with result := r } := h

/-- Settles O59: the outside can run only STEP, which ends with idle buses, and STATUS_READ, which moves no pin; after a RESET
the state is not initialised. -/
theorem stepKeepsBothBusesIdle : Obligations.StepKeepsBothBusesIdle := by
  unfold Obligations.StepKeepsBothBusesIdle
  rintro s t ⟨houtside, hidle⟩ h
  rcases step_cases h with ⟨i, rest, bytes, hpending, hdecode, hexec⟩ | ⟨rest, hpending, rfl⟩ | ⟨_, raw, now, rfl⟩
  · have hrest : ∀ x ∈ rest, outsideAction x = true := fun x hx => houtside x (hpending ▸ List.mem_cons_of_mem _ hx)
    rcases outsideAction_line hdecode (houtside _ (hpending ▸ List.mem_cons_self)) with ⟨raw, now, rfl⟩ | rfl
    · rw [exec_step hexec]
      exact ⟨by simpa [State.OutsideOnly] using hrest, fun _ => busIdle_of_result _ (stepState_idle hidle)⟩
    · cases hexec
      exact ⟨hrest, hidle⟩
  · exact ⟨fun x hx => houtside x (hpending ▸ List.mem_cons_of_mem _ hx), fun hinit => absurd hinit Bool.false_ne_true⟩
  · exact ⟨by simpa [State.OutsideOnly] using houtside, fun _ => busIdle_of_result _ (stepState_idle hidle)⟩

/-- Settles O60: the state after reset is not initialised, its queue is empty and its registers are 0. -/
theorem resetMeetsBothInvariants : Obligations.ResetMeetsBothInvariants := by
  unfold Obligations.ResetMeetsBothInvariants
  intro c
  exact ⟨fun hinit => absurd hinit Bool.false_ne_true, fun hinit => absurd hinit Bool.false_ne_true,
    ⟨Nat.two_pow_pos _, Nat.two_pow_pos _, Nat.two_pow_pos _⟩, fun x hx => absurd hx List.not_mem_nil,
    fun hinit => absurd hinit Bool.false_ne_true⟩

end Sys2Proof.Machine

/-!
PROOFS. The serial display driver (41_serial_display_driver.md): what each operation drives, and what a receiver reads.
-/
namespace Sys2Proof.Machine

/-- Settles O10: each primitive drives its one event, which writes its one register. -/
theorem pinPrimitivesWriteOneRegisterAndAppendOneEvent : Obligations.PinPrimitivesWriteOneRegisterAndAppendOneEvent := by
  unfold Obligations.PinPrimitivesWriteOneRegisterAndAppendOneEvent
  exact fun _ _ => ⟨fun _ => rfl, fun _ => rfl, fun _ => rfl, fun _ => rfl⟩

/-- The state after driver events, when the registers they leave are known. -/
theorem driven_eq {es : List PinEvent} {s : State} {p : PerChannel PinRegs} (hp : applyEvents es s.pins = p) :
    driven es s = { s with pins := p, trace := s.trace ++ es, result := .none } := by
  rw [← hp]
  rfl

/-- Settles O11: the events of START and the levels that `applyEvents_start` gives. -/
theorem startDrivesItsFiveEvents : Obligations.StartDrivesItsFiveEvents := by
  unfold Obligations.StartDrivesItsFiveEvents
  intro ch s
  rw [exec_start_driven, driven_eq (applyEvents_start s.cfg ch s.pins)]
  rfl

/-- Settles O12: the events of STOP and the levels that `applyEvents_stop` gives. -/
theorem stopDrivesItsEightEvents : Obligations.StopDrivesItsEightEvents := by
  unfold Obligations.StopDrivesItsEightEvents
  intro ch s
  rw [exec_stop_driven, driven_eq (applyEvents_stop s.cfg ch s.pins)]
  rfl

theorem exec_ackWindow_driven (ch : Channel) (s : State) :
    exec (.ackWindow ch) s = .next (driven (ackWindowEvents s.cfg ch) s) := rfl

/-- The acknowledge window's events, by the configured ninth clock (41_serial_display_driver.md R120). -/
theorem ackWindowEvents_eq (c : Cfg) (ch : Channel) :
    ackWindowEvents c ch =
      if c.ackNinthClock = true then
        [.clk ch false, .dir ch .input, .delay ch c.ackWindowUs, .clk ch true, .delay ch (c.tHold.get ch), .clk ch false,
          .dir ch .output]
      else [.clk ch false, .dir ch .input, .delay ch c.ackWindowUs, .dir ch .output] := by
  unfold ackWindowEvents ninthClockEvents
  split <;> rfl

/-- Settles O13: the events of `ackWindowEvents_eq` and the levels that `applyEvents_ackWindow` gives. -/
theorem ackWindowReleasesAndRestores : Obligations.AckWindowReleasesAndRestores := by
  unfold Obligations.AckWindowReleasesAndRestores
  intro ch s
  rw [exec_ackWindow_driven, driven_eq (applyEvents_ackWindow s.cfg ch s.pins), ackWindowEvents_eq]

theorem bitsOfByte_eq_map (b : Byte) : bitsOfByte b = (List.range 8).map (fun k => b.getLsbD k) := rfl

/-- Settles O14: eight bit cells and the window, with the levels that `applyEvents_writeByte` gives. -/
theorem writeByteDrawsEightCellsAndTheWindow : Obligations.WriteByteDrawsEightCellsAndTheWindow := by
  unfold Obligations.WriteByteDrawsEightCellsAndTheWindow
  intro ch b s
  rw [exec_writeByte_driven, driven_eq (applyEvents_writeByte s.cfg ch b s.pins), writeByteEvents, ackWindowEvents_eq,
    bitsOfByte_eq_map, List.flatMap_map, List.append_assoc]
  rfl

/-- Settles O15: each wire byte's meaning is WRITE_BYTE of the byte that its rule gives. -/
theorem wireBytesGoOutAsWriteByte : Obligations.WireBytesGoOutAsWriteByte := by
  unfold Obligations.WireBytesGoOutAsWriteByte
  exact fun _ _ => ⟨⟨_, rfl, rfl⟩, ⟨_, rfl, rfl⟩, fun _ => ⟨_, rfl, rfl⟩, fun _ _ _ => ⟨_, rfl, rfl⟩⟩

/-- Settles O17: the result is the data byte of the digit at its place. -/
theorem segbyteOrsTheColonAtPlaceOne : Obligations.SegbyteOrsTheColonAtPlaceOne := by
  unfold Obligations.SegbyteOrsTheColonAtPlaceOne
  exact fun _ _ _ _ => rfl

/-- The operations of a session (30_encoding.md R94). -/
def sessionOps (ch : Channel) (bs : List Byte) : List Instr :=
  .start ch :: (bs.map (fun b => .writeByte ch b) ++ [.stop ch])

theorem execAll_sessionOps_append (ch : Channel) (bs : List Byte) (rest : List Instr) (s : State) :
    execAll (sessionOps ch bs ++ rest) s = execAll rest (driven (sessionEvents s.cfg ch bs) s) := by
  rw [sessionOps, List.cons_append, List.append_assoc]
  exact execAll_session ch bs rest s

theorem execAll_sessionOps (ch : Channel) (bs : List Byte) (s : State) :
    execAll (sessionOps ch bs) s = .next (driven (sessionEvents s.cfg ch bs) s) := by
  rw [← List.append_nil (sessionOps ch bs), execAll_sessionOps_append]
  rfl

/-- Sessions one after the other, at least one. -/
theorem execAll_sessions (ch : Channel) (bss : List (List Byte)) (bs : List Byte) (s : State) :
    execAll ((bs :: bss).flatMap (sessionOps ch)) s = .next (driven ((bs :: bss).flatMap (sessionEvents s.cfg ch)) s) := by
  induction bss generalizing bs s with
  | nil => simp [execAll_sessionOps]
  | cons next bss ih =>
    rw [List.flatMap_cons, execAll_sessionOps_append, ih, driven_cfg, ← driven_append, ← List.flatMap_cons]

/-- The brightness command of a brightness in range (30_encoding.md R84, R89). -/
theorem controlByte_ofNat (c : Cfg) {n : Nat} (hn : n ≤ 7) :
    controlByte c (BitVec.ofNat 3 n) = c.cmdDisplayOn ||| BitVec.ofNat 8 n := by
  have hwidth : (BitVec.ofNat 3 n).setWidth 8 = BitVec.ofNat 8 n := by
    apply BitVec.eq_of_toNat_eq
    simp
    omega
  rw [controlByte, hwidth]

/-- The sessions (a) and (b) of a frame (30_encoding.md R86). -/
theorem frameSessions_of_none {c : Cfg} {ch : Channel} (f : DigitFrame) (hb : c.brightness.get ch = none) :
    frameSessions c ch f = [[c.cmdDataAutoinc], c.cmdAddrBase :: dataBytes c f] := by
  rw [frameSessions, hb]
  rfl

/-- With a brightness configured, (c) too. -/
theorem frameSessions_of_some {c : Cfg} {ch : Channel} {n : Nat} (f : DigitFrame) (hb : c.brightness.get ch = some n) :
    frameSessions c ch f =
      [[c.cmdDataAutoinc], c.cmdAddrBase :: dataBytes c f, [c.cmdDisplayOn ||| BitVec.ofNat 8 n]] := by
  rw [frameSessions, hb, ← controlByte_ofNat c (c.brightness_le hb)]
  rfl

/-- Settles O18: the operations are those of the frame's sessions, whose events in sequence are WRITE_FRAME's. -/
theorem writeFrameIsItsStartsBytesAndStops : Obligations.WriteFrameIsItsStartsBytesAndStops := by
  unfold Obligations.WriteFrameIsItsStartsBytesAndStops
  intro ch f s
  refine ⟨_, _, _, _, _, rfl, rfl, rfl, rfl, exec_writeFrame_driven ch f s, ?_⟩
  cases hb : s.cfg.brightness.get ch with
  | none =>
    rw [writeFrameEvents, frameSessions_of_none f hb]
    exact execAll_sessions ch [s.cfg.cmdAddrBase :: dataBytes s.cfg f] [s.cfg.cmdDataAutoinc] s
  | some n =>
    rw [writeFrameEvents, frameSessions_of_some f hb]
    exact execAll_sessions ch
      [s.cfg.cmdAddrBase :: dataBytes s.cfg f, [s.cfg.cmdDisplayOn ||| BitVec.ofNat 8 n]] [s.cfg.cmdDataAutoinc] s

/-- Settles O43: the counts of the frame's sessions, one of one byte, one of five and, with a brightness, another of one. -/
theorem frameEventAndDelayCounts : Obligations.FrameEventAndDelayCounts := by
  unfold Obligations.FrameEventAndDelayCounts
  intro ch f s
  refine ⟨_, _, exec_writeFrame_driven ch f s, rfl, ?_⟩
  have hninth : (if s.cfg.ackNinthClock = true then 1 else 0) = s.cfg.ackNinthClock.toNat := by
    cases s.cfg.ackNinthClock <;> rfl
  cases hb : s.cfg.brightness.get ch with
  | none =>
    simp only [hninth, writeFrameEvents, frameSessions_of_none f hb, List.flatMap_cons, List.flatMap_nil, List.length_append,
      length_sessionEvents, delaySum_append, delaySum_sessionEvents, dataBytes, List.length_cons, List.length_nil, delaySum]
    constructor <;> ring
  | some n =>
    simp only [hninth, writeFrameEvents, frameSessions_of_some f hb, List.flatMap_cons, List.flatMap_nil, List.length_append,
      length_sessionEvents, delaySum_append, delaySum_sessionEvents, dataBytes, List.length_cons, List.length_nil, delaySum]
    constructor <;> ring

end Sys2Proof.Machine

/-!
PROOFS. The receiver's reading of driver operations, sessions and frames (20_memory.md R54 to R64), and runs of lines.
-/
namespace Sys2Proof.Machine

/-- Settles O37: `receiveAll_start` gives the receiver after the five events, `applyEvents_start` the wires. -/
theorem startMakesExactlyOneStartMarker : Obligations.StartMakesExactlyOneStartMarker := by
  unfold Obligations.StartMakesExactlyOneStartMarker
  intro ch s hidle
  refine ⟨_, _, exec_start_driven ch s, rfl, ?_⟩
  rw [receiveAll_start s.cfg ch (Receiver.idleAt (s.pins.get ch)) hidle rfl rfl]
  simp [Receiver.idleAt, clockWire, dataWire, applyEvents_start, hidle, idlePin]

/-- Settles O38: `receiveAll_stop` gives the receiver after the eight events, `applyEvents_stop` the wires. -/
theorem stopMakesExactlyOneStopMarker : Obligations.StopMakesExactlyOneStopMarker := by
  unfold Obligations.StopMakesExactlyOneStopMarker
  intro ch s r _ hdriven hpin hopen hedge
  refine ⟨_, _, exec_stop_driven ch s, rfl, ?_⟩
  rw [receiveAll_stop s.cfg ch r (hpin ▸ hdriven) hopen hedge]
  simp [clockWire, dataWire, applyEvents_stop, hdriven]

/-- Settles O39: `receiveAll_writeByte` gives the receiver after the cells and the window. -/
theorem writeByteCarriesBitsLeastSignificantFirst : Obligations.WriteByteCarriesBitsLeastSignificantFirst := by
  unfold Obligations.WriteByteCarriesBitsLeastSignificantFirst
  intro ch b s r hdriven hpin hopen hedge
  refine ⟨_, _, exec_writeByte_driven ch b s, rfl, ?_⟩
  rw [receiveAll_writeByte s.cfg ch b r (hpin ▸ hdriven) hopen hedge]
  exact ⟨rfl, rfl, hopen, rfl, rfl, rfl⟩

/-- A receiver sees only the events of its channel. -/
theorem receiveAll_eventsOn (ch : Channel) (es : List PinEvent) (r : Receiver) :
    receiveAll ch (eventsOn ch es) r = receiveAll ch es r := by
  induction es generalizing r with
  | nil => rfl
  | cons e es ih =>
    by_cases he : channelOfEvent e = ch
    · simpa [eventsOn, receiveAll, he] using ih (receive r e)
    · simpa [eventsOn, receiveAll, he] using ih r

/-- On an idle bus the sessions are read back, whatever the other channel's events are. -/
theorem sessionsFrom_of_eventsOn {c : Cfg} {ch : Channel} {es : List PinEvent} {bss : List (List Byte)}
    (hes : eventsOn ch es = bss.flatMap (sessionEvents c ch)) : sessionsFrom idlePin ch es = bss := by
  rw [sessionsFrom, ← receiveAll_eventsOn, hes]
  exact sessionsFrom_sessions c ch bss

theorem set_idlePin {ch : Channel} {p : PerChannel PinRegs} (hidle : p.get ch = idlePin) :
    p.set ch { clk := true, dioOut := true, dioDir := .output } = p := by
  have hself := PerChannel.set_get_self p ch
  rwa [hidle] at hself

/-- A session leaves an idle bus as it was. -/
theorem applyEvents_session_idle (c : Cfg) {ch : Channel} (bs : List Byte) {p : PerChannel PinRegs}
    (hidle : p.get ch = idlePin) : applyEvents (sessionEvents c ch bs) p = p := by
  rw [applyEvents_session c ch bs p (by rw [hidle]; rfl), set_idlePin hidle]

/-- A frame leaves an idle bus as it was (41_serial_display_driver.md R122). -/
theorem applyEvents_writeFrame_idle (c : Cfg) {ch : Channel} (f : DigitFrame) {p : PerChannel PinRegs}
    (hidle : p.get ch = idlePin) : applyEvents (writeFrameEvents c ch f) p = p := by
  rw [applyEvents_writeFrame c ch f p (by rw [hidle]; rfl), set_idlePin hidle]

/-- The four data bytes of a frame, the colon in the second one (30_encoding.md R85). -/
theorem dataBytes_eq (c : Cfg) (f : DigitFrame) :
    dataBytes c f =
      [(c.seg.get f.d0).setWidth 8,
        (if f.colon = true then (c.seg.get f.d1).setWidth 8 ||| c.colonMask else (c.seg.get f.d1).setWidth 8),
        (c.seg.get f.d2).setWidth 8, (c.seg.get f.d3).setWidth 8] := by
  simp [dataBytes, dataByte, colonByte, segmentsOf]

theorem channelOf_writeFrameEvents_ne (c : Cfg) {ch k : Channel} (h : ch ≠ k) (f : DigitFrame) :
    ∀ e ∈ writeFrameEvents c ch f, channelOfEvent e ≠ k :=
  fun e he hk => h ((channelOf_writeFrameEvents c ch f e he).symm.trans hk)

/-- Settles O41: a frame leaves the idle pins as they were; its sessions are read back on its channel, none on the other. -/
theorem frameIsTwoOrThreeSessions : Obligations.FrameIsTwoOrThreeSessions := by
  unfold Obligations.FrameIsTwoOrThreeSessions
  intro ch f s hidle
  refine ⟨writeFrameEvents s.cfg ch f, ?next, ?own, ?other⟩
  case next =>
    rw [exec_writeFrame_driven, driven_eq (applyEvents_writeFrame_idle s.cfg f hidle)]
  case own =>
    have hsessions : sessionsFrom idlePin ch (writeFrameEvents s.cfg ch f) = frameSessions s.cfg ch f :=
      sessionsFrom_sessions s.cfg ch _
    rw [hsessions, ← dataBytes_eq]
    cases hb : s.cfg.brightness.get ch with
    | none => exact frameSessions_of_none f hb
    | some n => exact frameSessions_of_some f hb
  case other => exact sessionsFrom_of_other (channelOf_writeFrameEvents_ne s.cfg ch.other_ne.symm f)

/-- A session of one byte writes no position (20_memory.md R58). -/
theorem displayWrites_single (c : Cfg) (b : Byte) (bss : List (List Byte)) :
    displayWrites c ([b] :: bss) = displayWrites c bss := by
  simp [displayWrites]

/-- Settles O42: of the frame's sessions only (b) holds bytes after its command, the four data bytes. -/
theorem frameWritesFourDisplayPositions : Obligations.FrameWritesFourDisplayPositions := by
  unfold Obligations.FrameWritesFourDisplayPositions
  intro ch f s _
  refine ⟨_, _, exec_writeFrame_driven ch f s, rfl, ?_⟩
  have hsessions : sessionsFrom idlePin ch (writeFrameEvents s.cfg ch f) = frameSessions s.cfg ch f :=
    sessionsFrom_sessions s.cfg ch _
  rw [hsessions]
  cases hb : s.cfg.brightness.get ch with
  | none =>
    rw [frameSessions_of_none f hb, displayWrites_single]
    simp [displayWrites, dataBytes]
  | some n =>
    rw [frameSessions_of_some f hb, displayWrites_single]
    simp [displayWrites, dataBytes]

theorem driven_withPending (es : List PinEvent) (s : State) (q : List Stimulus) :
    driven es { s with pending := q } = { driven es s with pending := q } := rfl

theorem lazyInit_withPending (s : State) (q : List Stimulus) :
    lazyInit { s with pending := q } = { lazyInit s with pending := q } := by
  rcases Bool.eq_false_or_eq_true s.initialized with hinit | hnot
  · rw [lazyInit_of_initialized (s := { s with pending := q }) hinit, lazyInit_of_initialized hinit]
  · rw [lazyInit_of_not (s := { s with pending := q }) hnot, lazyInit_of_not hnot]
    rfl

/-- An operation neither reads nor writes the queue. -/
theorem exec_withPending {i : Instr} {s t : State} (h : exec i s = .next t) (q : List Stimulus) :
    exec i { s with pending := q } = .next { t with pending := q } := by
  cases hd : driverChannel i with
  | some ch =>
    obtain ⟨es, _, hexec⟩ := exec_driver (c := s.cfg) hd
    rw [hexec s rfl] at h
    cases h
    exact hexec _ rfl
  | none =>
    cases i with
    | step raw now =>
      cases h
      simp only [exec, execStep, stepState, lazyInit_withPending]
      rfl
    | render => cases h; exact congrArg Host.Outcome.next (driven_withPending (renderEvents s.cfg s.lap) s q)
    | encode | segbyte | debouncePoll | lapUpdate | lapStart | lapComplete | lapTick | lapHold | formatMmss | init | statusRead =>
      cases h
      rfl
    | _ => cases hd

/-- A run of as many steps as there are lines placed is the operations of the lines, one after the other. -/
theorem run_lines {is : List Instr} (hwf : ∀ i ∈ is, i.wellFormed = true) {s : State}
    (hpending : s.pending = is.map (fun i => .line (encode i))) :
    Sys2Proof.core.run is.length s = execAll is { s with pending := [] } := by
  induction is generalizing s with
  | nil =>
    rw [List.map_nil] at hpending
    rw [← hpending]
    rfl
  | cons i is ih =>
    obtain ⟨t, ht⟩ := exec_next i { s with pending := is.map (fun i => .line (encode i)) }
    obtain ⟨_, hrest, _⟩ := exec_frame ht
    rw [List.length_cons, run_line _ hpending (decode_encode i (hwf i List.mem_cons_self)) ht,
      ih (fun j hj => hwf j (List.mem_cons_of_mem i hj)) hrest, execAll_cons is (exec_withPending ht [])]

theorem sessionLines_eq_map (ch : Channel) (bs : List Byte) :
    sessionLines ch bs = (sessionOps ch bs).map (fun i => .line (encode i)) := by
  simp [sessionLines, sessionOps]

theorem sessionOps_wellFormed (ch : Channel) (bs : List Byte) : ∀ i ∈ sessionOps ch bs, i.wellFormed = true := by
  intro i hi
  simp only [sessionOps, List.mem_cons, List.mem_append, List.mem_map, List.not_mem_nil, or_false] at hi
  rcases hi with rfl | ⟨b, _, rfl⟩ | rfl <;> rfl

theorem sessionOps_length (ch : Channel) (bs : List Byte) : (sessionOps ch bs).length = bs.length + 2 := by
  simp [sessionOps]

/-- Settles O40: the run of the lines is the operations of one session, whose events are read back. -/
theorem sessionLinesCarryTheirBytes : Obligations.SessionLinesCarryTheirBytes := by
  unfold Obligations.SessionLinesCarryTheirBytes
  intro ch bs s hidle hpending
  have hrun := run_lines (sessionOps_wellFormed ch bs) (hpending.trans (sessionLines_eq_map ch bs))
  rw [sessionOps_length, execAll_sessionOps] at hrun
  refine ⟨_, _, hrun, rfl, ?sessions, ?pins, rfl⟩
  case sessions => exact sessionsFrom_of_eventsOn (c := s.cfg) (by simp [eventsOn_of_own (channelOf_sessionEvents s.cfg ch bs)])
  case pins => exact applyEvents_session_idle s.cfg bs hidle

end Sys2Proof.Machine

/-!
PROOFS. The debounce filter over many polls (42_debounce.md): stability, distance of beam breaks, the two equivalences.
-/
namespace Sys2Proof.Machine

/-- `diff_W` against a bound, over the integers as the rules write it (00_scope.md R8). -/
theorem le_diffW_iff (c : Cfg) (n a b : Nat) : n ≤ diffW c a b ↔ (n : Int) ≤ ((a : Int) - b) % 2 ^ c.tsWidth := by
  rw [← diffW_int]
  exact Int.ofNat_le.symm

/-- One poll as a single choice: commit the sampled level, or record it (42_debounce.md R142). -/
theorem debouncePoll_eq (c : Cfg) (raw : Bool) (now : Nat) (b : BeamState) :
    debouncePoll c raw now b =
      if raw ≠ b.debounced ∧ c.debounceWindowUs ≤ diffW c now (stampAfter c raw now b) then
        ({ lastRaw := raw, debounced := raw, changeTs := stampAfter c raw now b }, commitEdges raw)
      else ({ lastRaw := raw, debounced := b.debounced, changeTs := stampAfter c raw now b }, noEdges) := by
  rcases debouncePoll_cases c raw now b with ⟨hlevel, hwindow, e⟩ | ⟨hkeep, e⟩
  · rw [if_pos ⟨hlevel, hwindow⟩, e]
  · rw [if_neg fun ⟨hlevel, hwindow⟩ => Nat.not_lt.mpr hwindow (hkeep hlevel), e]

/-- Settles O19: `debouncePoll_eq` chooses by the same condition, its timestamp being the record part's. -/
theorem debouncePollRecordsThenCommits : Obligations.DebouncePollRecordsThenCommits := by
  unfold Obligations.DebouncePollRecordsThenCommits
  intro raw now s ts
  have hpoll := debouncePoll_eq s.cfg raw now s.beam
  simp only [show stampAfter s.cfg raw now s.beam = ts from rfl, le_diffW_iff] at hpoll
  rw [exec_debouncePoll]
  split
  next hcommit => rw [hpoll, if_pos hcommit]; rfl
  next hkeep => rw [hpoll, if_neg hkeep]; rfl

/-- The polls `ps` end in an unbroken run of `raw`, whose first sample is at `t0`. -/
def EndsInRunFrom (ps : List Sample) (raw : Bool) (t0 : Nat) : Prop :=
  ∃ before after : List Sample, ps = before ++ (raw, t0) :: after ∧ ∀ x ∈ after, x.1 = raw

theorem endsInRunFrom_last (ps : List Sample) (raw : Bool) (t : Nat) : EndsInRunFrom (ps ++ [(raw, t)]) raw t :=
  ⟨ps, [], rfl, by simp⟩

theorem EndsInRunFrom.snoc {ps : List Sample} {raw : Bool} {t0 : Nat} (h : EndsInRunFrom ps raw t0) (t : Nat) :
    EndsInRunFrom (ps ++ [(raw, t)]) raw t0 := by
  obtain ⟨before, after, rfl, hafter⟩ := h
  refine ⟨before, after ++ [(raw, t)], by simp, fun x hx => ?_⟩
  rcases List.mem_append.mp hx with hx | hx
  · exact hafter x hx
  · rw [List.mem_singleton.mp hx]

/-- While a level is pending, the polls end in a run of it that began at the timestamp (10_state.md R25). -/
theorem pollAll_pending_run {c : Cfg} {b : BeamState} (hsettled : b.lastRaw = b.debounced) (ps : List Sample)
    (hpending : (pollAll c ps b).1.lastRaw ≠ (pollAll c ps b).1.debounced) :
    ∃ t0, (pollAll c ps b).1.changeTs = modW c t0 ∧ EndsInRunFrom ps (pollAll c ps b).1.lastRaw t0 := by
  induction ps using List.reverseRecOn with
  | nil => exact absurd hsettled hpending
  | append_singleton ps x ih =>
    obtain ⟨raw, now⟩ := x
    have hlast : (pollAll c (ps ++ [(raw, now)]) b).1 = (debouncePoll c raw now (pollAll c ps b).1).1 := by
      rw [pollAll_append]
      rfl
    rw [hlast] at hpending ⊢
    generalize (pollAll c ps b).1 = b' at ih hpending ⊢
    rcases debouncePoll_cases c raw now b' with ⟨_, _, e⟩ | ⟨_, e⟩
    · rw [e] at hpending
      exact absurd rfl hpending
    · rw [e] at hpending ⊢
      by_cases hsame : raw = b'.lastRaw
      · obtain ⟨t0, hstamp, hrun⟩ := ih (hsame ▸ hpending)
        exact ⟨t0, (if_pos hsame).trans hstamp, (hsame ▸ hrun).snoc now⟩
      · exact ⟨now, if_neg hsame, endsInRunFrom_last ps raw now⟩

/-- Settles O46: a poll that changes the debounced level commits the sampled one, which was pending before it: a window above 0
has not elapsed at the poll that records a change. -/
theorem debouncedLevelChangesOnlyWhenStable : Obligations.DebouncedLevelChangesOnlyWhenStable := by
  unfold Obligations.DebouncedLevelChangesOnlyWhenStable
  intro s ps raw now t hwindow hsettled h hchange
  rw [exec_debouncePoll] at h
  cases h
  simp only at hchange ⊢
  have hpending := pollAll_pending_run (c := s.cfg) hsettled ps
  generalize (pollAll s.cfg ps s.beam).1 = b at hchange hpending ⊢
  rcases debouncePoll_cases s.cfg raw now b with ⟨hlevel, helapsed, e⟩ | ⟨_, e⟩
  · rw [e]
    refine ⟨rfl, ?_⟩
    by_cases hsame : raw = b.lastRaw
    · obtain ⟨t0, hstamp, before, after, hps, hafter⟩ := hpending (hsame ▸ hlevel)
      refine ⟨before, after, t0, hsame ▸ hps, hsame ▸ hafter, ?_⟩
      rw [stampAfter, if_pos hsame, hstamp, diffW_modW_right] at helapsed
      exact (le_diffW_iff s.cfg _ _ _).mp helapsed
    · rw [stampAfter, if_neg hsame, diffW_modW_right, diffW_self] at helapsed
      exact absurd helapsed (Nat.not_le.mpr hwindow)
  · rw [e] at hchange
    exact absurd rfl hchange

/-- A pending level of the filter was first sampled at a true time that is not before `since` and not after `now`. -/
def PendingSince (c : Cfg) (since now : Nat) (b : BeamState) : Prop :=
  b.lastRaw ≠ b.debounced → ∃ t0, since ≤ t0 ∧ t0 ≤ now ∧ b.changeTs = modW c t0

/-- One poll at a true time: it commits, at least a window after `since`, and the filter is settled; or nothing happens and a
pending level is one sampled not before `since` (42_debounce.md R148). -/
theorem poll_at_true_time {c : Cfg} {raw : Bool} {since u now : Nat} {b : BeamState} (hb : PendingSince c since u b)
    (hsince : since ≤ u) (hnow : u ≤ now) :
    (raw ≠ b.debounced ∧ since + c.debounceWindowUs ≤ now ∧
      (debouncePoll c raw (now % 2 ^ c.tsWidth) b).2 = commitEdges raw ∧
      (debouncePoll c raw (now % 2 ^ c.tsWidth) b).1.debounced = raw ∧
      (debouncePoll c raw (now % 2 ^ c.tsWidth) b).1.lastRaw = raw) ∨
    ((debouncePoll c raw (now % 2 ^ c.tsWidth) b).2 = noEdges ∧
      (debouncePoll c raw (now % 2 ^ c.tsWidth) b).1.debounced = b.debounced ∧
      PendingSince c since now (debouncePoll c raw (now % 2 ^ c.tsWidth) b).1) := by
  have hstamp (hlevel : raw ≠ b.debounced) :
      ∃ t0, since ≤ t0 ∧ t0 ≤ now ∧ stampAfter c raw (now % 2 ^ c.tsWidth) b = modW c t0 := by
    by_cases hsame : raw = b.lastRaw
    · obtain ⟨t0, hlo, hhi, hts⟩ := hb (hsame ▸ hlevel)
      exact ⟨t0, hlo, hhi.trans hnow, (if_pos hsame).trans hts⟩
    · exact ⟨now, hsince.trans hnow, Nat.le_refl _, (if_neg hsame).trans (modW_modW c now)⟩
  rcases debouncePoll_cases c raw (now % 2 ^ c.tsWidth) b with ⟨hlevel, hwindow, e⟩ | ⟨_, e⟩
  · obtain ⟨t0, hlo, hhi, hts⟩ := hstamp hlevel
    have htrue : c.debounceWindowUs ≤ now - t0 := by
      rw [hts, diffW_modW_right] at hwindow
      exact hwindow.trans ((diffW_modW_left c now t0).trans_le (diffW_le_true c hhi))
    rw [e]
    exact .inl ⟨hlevel, by omega, rfl, rfl, rfl⟩
  · rw [e]
    exact .inr ⟨rfl, rfl, hstamp⟩

theorem pendingSince_of_settled {c : Cfg} {since now : Nat} {b : BeamState} (h : b.lastRaw = b.debounced) :
    PendingSince c since now b := fun hpending => absurd h hpending

theorem timesRise_head_le {t : Nat} {ts : List Nat} (h : timesRise (t :: ts)) : ∀ u ∈ ts, t ≤ u := by
  induction ts generalizing t with
  | nil => simp
  | cons u ts ih =>
    obtain ⟨hle, hrest⟩ := h
    intro v hv
    rcases List.mem_cons.mp hv with rfl | hv
    · exact hle
    · exact hle.trans (ih hrest v hv)

/-- A fall that the filter reports comes at least a window after `since` (42_debounce.md R148). -/
theorem window_before_fall {c : Cfg} {since u : Nat} {b : BeamState} (hb : PendingSince c since u b) (hsince : since ≤ u)
    (mid : List Sample) {y : Sample} (htimes : timesRise (u :: (mid ++ [y]).map (fun p => p.2)))
    (hfall : (debouncePoll c y.1 (y.2 % 2 ^ c.tsWidth)
      (pollAll c (mid.map (fun p => sampleAt c p.1 p.2)) b).1).2.fall = true) :
    since + c.debounceWindowUs ≤ y.2 := by
  induction mid generalizing u b with
  | nil =>
    rcases poll_at_true_time (raw := y.1) (now := y.2) hb hsince htimes.1 with ⟨_, hwindow, _⟩ | ⟨hnone, _⟩
    · exact hwindow
    · exact absurd ((congrArg Edges.fall hnone).symm.trans hfall) Bool.false_ne_true
  | cons z mid ih =>
    obtain ⟨hle, hrest⟩ := htimes
    rcases poll_at_true_time (raw := z.1) (now := z.2) hb hsince hle with ⟨_, hwindow, _⟩ | ⟨_, _, hpending⟩
    · exact hwindow.trans (timesRise_head_le hrest y.2 (by simp))
    · exact ih hpending (hsince.trans hle) hrest hfall

/-- From the debounced level 0, a fall comes after a rise, a window after `since` and a window before it. -/
theorem rise_and_two_windows_before_fall {c : Cfg} {since u : Nat} {b : BeamState} (hb : PendingSince c since u b)
    (hsince : since ≤ u) (hlow : b.debounced = false) (mid : List Sample) {y : Sample}
    (htimes : timesRise (u :: (mid ++ [y]).map (fun p => p.2)))
    (hfall : (debouncePoll c y.1 (y.2 % 2 ^ c.tsWidth)
      (pollAll c (mid.map (fun p => sampleAt c p.1 p.2)) b).1).2.fall = true) :
    since + 2 * c.debounceWindowUs ≤ y.2 ∧
      ∃ e ∈ (pollAll c (mid.map (fun p => sampleAt c p.1 p.2)) b).2, e.rise = true := by
  induction mid generalizing u b with
  | nil =>
    rcases poll_at_true_time (raw := y.1) (now := y.2) hb hsince htimes.1 with ⟨hlevel, _, hedges, _⟩ | ⟨hnone, _⟩
    · rw [hlow, Bool.ne_false_iff] at hlevel
      have hrises : (commitEdges y.1).fall = true := (congrArg Edges.fall hedges).symm.trans hfall
      simp [hlevel, commitEdges] at hrises
    · exact absurd ((congrArg Edges.fall hnone).symm.trans hfall) Bool.false_ne_true
  | cons z mid ih =>
    obtain ⟨hle, hrest⟩ := htimes
    rcases poll_at_true_time (raw := z.1) (now := z.2) hb hsince hle with
      ⟨hlevel, hwindow, hedges, hdebounced, hraw⟩ | ⟨_, hkept, hpending⟩
    · have hsettled : PendingSince c z.2 z.2 _ := pendingSince_of_settled (hraw.trans hdebounced.symm)
      have hsecond := window_before_fall hsettled (Nat.le_refl z.2) mid hrest hfall
      refine ⟨by omega, _, List.mem_cons_self, ?_⟩
      rw [hlow, Bool.ne_false_iff] at hlevel
      exact (congrArg Edges.rise hedges).trans hlevel
    · obtain ⟨hdistance, e, he, hrise⟩ := ih hpending (hsince.trans hle) (hkept.trans hlow) hrest hfall
      exact ⟨hdistance, e, List.mem_cons_of_mem _ he, hrise⟩

/-- Settles O47: the first fall leaves the filter settled at level 0, from where the next fall needs a rise and two windows. -/
theorem beamBreaksAreTwoWindowsApart : Obligations.BeamBreaksAreTwoWindowsApart := by
  unfold Obligations.BeamBreaksAreTwoWindowsApart
  intro c b x y mid htimes hfirst hsecond
  rcases debouncePoll_cases c x.1 (x.2 % 2 ^ c.tsWidth) b with ⟨_, _, e⟩ | ⟨_, e⟩
  · rw [e] at hfirst hsecond ⊢
    have hlow : x.1 = false := by simpa [commitEdges] using hfirst
    exact rise_and_two_windows_before_fall (pendingSince_of_settled rfl) (Nat.le_refl x.2) hlow mid htimes hsecond
  · rw [e] at hfirst
    exact absurd hfirst Bool.false_ne_true

/-- Two filters with the same levels, and with the same timestamp while a level is pending (42_debounce.md R151). -/
def SameFilter (b b' : BeamState) : Prop :=
  b.lastRaw = b'.lastRaw ∧ b.debounced = b'.debounced ∧ (b.lastRaw ≠ b.debounced → b.changeTs = b'.changeTs)

/-- A poll reads the timestamp of a pending level only. -/
theorem debouncePoll_sameFilter {b b' : BeamState} (h : SameFilter b b') (c : Cfg) (raw : Bool) (now : Nat) :
    SameFilter (debouncePoll c raw now b).1 (debouncePoll c raw now b').1 ∧
      (debouncePoll c raw now b).2 = (debouncePoll c raw now b').2 := by
  obtain ⟨hraw, hdebounced, hstamp⟩ := h
  by_cases hlevel : raw = b.debounced
  · rw [debouncePoll_of_debounced_level hlevel, debouncePoll_of_debounced_level (hlevel.trans hdebounced)]
    exact ⟨⟨rfl, hdebounced, fun hpending => absurd hlevel hpending⟩, rfl⟩
  · have hsame : stampAfter c raw now b = stampAfter c raw now b' := by
      rw [stampAfter, stampAfter, ← hraw]
      split
      next hlast => exact hstamp (hlast ▸ hlevel)
      next => rfl
    rw [debouncePoll_eq c raw now b, debouncePoll_eq c raw now b', ← hdebounced, ← hsame]
    exact ⟨⟨rfl, rfl, fun _ => rfl⟩, rfl⟩

theorem pollAll_sameFilter {b b' : BeamState} (h : SameFilter b b') (c : Cfg) (ps : List Sample) :
    SameFilter (pollAll c ps b).1 (pollAll c ps b').1 ∧ (pollAll c ps b).2 = (pollAll c ps b').2 := by
  induction ps generalizing b b' with
  | nil => exact ⟨h, rfl⟩
  | cons x ps ih =>
    obtain ⟨hfilter, hedges⟩ := debouncePoll_sameFilter h c x.1 x.2
    obtain ⟨hend, hrest⟩ := ih hfilter
    exact ⟨hend, by rw [pollAll, pollAll, hedges, hrest]⟩

theorem sameFilter_of_settled {b : BeamState} (h : b.lastRaw = b.debounced) (ts : Nat) :
    SameFilter b { b with changeTs := ts } := ⟨rfl, rfl, fun hpending => absurd h hpending⟩

/-- Settles O49: settled filters with two timestamps are the same filter, and polls keep them so. -/
theorem staleTimestampIsNeverRead : Obligations.StaleTimestampIsNeverRead := by
  unfold Obligations.StaleTimestampIsNeverRead
  intro c b ts ps hsettled
  obtain ⟨⟨hraw, hdebounced, _⟩, hedges⟩ := pollAll_sameFilter (sameFilter_of_settled hsettled ts) c ps
  exact ⟨hedges, hraw, hdebounced⟩

/-- The two filters of 42_debounce.md R150 agree: the flag says that a level is pending, and while it is the timestamps agree. -/
def FlagMatches (b : BeamState) (f : FlagFilter) : Prop :=
  f.debounced = b.debounced ∧ f.pendingChange = decide (b.lastRaw ≠ b.debounced) ∧
    (b.lastRaw ≠ b.debounced → f.changeTs = b.changeTs)

/-- At the debounced level the flag filter clears its flag and reports nothing. -/
theorem flagPoll_of_debounced_level {c : Cfg} {raw : Bool} {now : Nat} {f : FlagFilter} (h : raw = f.debounced) :
    flagPoll c raw now f = ({ f with pendingChange := false }, noEdges) := by
  simp [flagPoll, h]

/-- At the other level it commits or keeps the level pending, by the timestamp of the record part. -/
theorem flagPoll_of_other_level {c : Cfg} {raw : Bool} {now : Nat} {b : BeamState} {f : FlagFilter} (h : FlagMatches b f)
    (hlevel : raw ≠ b.debounced) :
    flagPoll c raw now f =
      if c.debounceWindowUs ≤ diffW c now (stampAfter c raw now b) then
        ({ debounced := raw, pendingChange := false, changeTs := stampAfter c raw now b }, commitEdges raw)
      else ({ debounced := b.debounced, pendingChange := true, changeTs := stampAfter c raw now b }, noEdges) := by
  obtain ⟨debounced, pendingChange, changeTs⟩ := f
  obtain ⟨hdebounced, hflag, hstamp⟩ := h
  simp only at hdebounced hflag hstamp
  subst hdebounced hflag
  by_cases hlast : raw = b.lastRaw
  · subst hlast
    simp [flagPoll, windowElapsed, stampAfter, hlevel, hstamp hlevel]
  · have hsettled : b.lastRaw = b.debounced := by
      rw [Bool.eq_not.mpr hlevel] at hlast
      exact (Bool.eq_not.mpr (Ne.symm hlast)).trans (Bool.not_not _)
    simp [flagPoll, windowElapsed, stampAfter, hlevel, hsettled]

/-- One poll of the two filters: the same event, and they agree again. -/
theorem flagPoll_matches {b : BeamState} {f : FlagFilter} (h : FlagMatches b f) (c : Cfg) (raw : Bool) (now : Nat) :
    FlagMatches (debouncePoll c raw now b).1 (flagPoll c raw now f).1 ∧
      (debouncePoll c raw now b).2 = (flagPoll c raw now f).2 := by
  by_cases hlevel : raw = b.debounced
  · rw [debouncePoll_of_debounced_level hlevel, flagPoll_of_debounced_level (hlevel.trans h.1.symm)]
    simp [FlagMatches, h.1, hlevel]
  · rw [debouncePoll_eq, flagPoll_of_other_level h hlevel]
    by_cases hwindow : c.debounceWindowUs ≤ diffW c now (stampAfter c raw now b)
    · rw [if_pos ⟨hlevel, hwindow⟩, if_pos hwindow]
      simp [FlagMatches]
    · rw [if_neg (fun hcommit => hwindow hcommit.2), if_neg hwindow]
      simp [FlagMatches, hlevel]

theorem flagPollAll_matches {b : BeamState} {f : FlagFilter} (h : FlagMatches b f) (c : Cfg) (ps : List Sample) :
    FlagMatches (pollAll c ps b).1 (flagPollAll c ps f).1 ∧ (pollAll c ps b).2 = (flagPollAll c ps f).2 := by
  induction ps generalizing b f with
  | nil => exact ⟨h, rfl⟩
  | cons x ps ih =>
    obtain ⟨hfilter, hedges⟩ := flagPoll_matches h c x.1 x.2
    obtain ⟨hend, hrest⟩ := ih hfilter
    exact ⟨hend, by rw [pollAll, flagPollAll, hedges, hrest]⟩

/-- Settles O48: a settled filter matches a clear flag, and polls keep the two filters matched. -/
theorem pendingFlagFilterIsEquivalent : Obligations.PendingFlagFilterIsEquivalent := by
  unfold Obligations.PendingFlagFilterIsEquivalent
  intro c b ps hsettled
  have hmatch : FlagMatches b { debounced := b.debounced, pendingChange := false, changeTs := b.changeTs } := by
    simp [FlagMatches, hsettled]
  obtain ⟨⟨hdebounced, _⟩, hedges⟩ := flagPollAll_matches hmatch c ps
  exact ⟨hedges, hdebounced.symm⟩

end Sys2Proof.Machine

/-!
PROOFS. The configuration (00_scope.md R5, R6): what its check says.
-/
namespace Sys2Proof

/-- What holds of both channels' fields holds on every channel. -/
theorem PerChannel.forall_get {α : Type} (x : PerChannel α) (P : α → Prop) : (∀ ch, P (x.get ch)) ↔ P x.a ∧ P x.b :=
  ⟨fun h => ⟨h .A, h .B⟩, fun h ch => by cases ch; exacts [h.1, h.2]⟩

/-- The check of 00_scope.md R6, field by field. -/
theorem CfgData.wellFormed_iff (d : CfgData) :
    d.wellFormed = true ↔
      1 ≤ d.tsWidth ∧ 1 ≤ d.lapCountWidth ∧ d.minMax ≤ 99 ∧ d.secMax ≤ 99 ∧
      d.debounceWindowUs < 2 ^ d.tsWidth ∧ d.tickPeriodUs < 2 ^ d.tsWidth ∧
      (∀ ch, 2 ≤ d.tHold.get ch) ∧ (∀ ch n, d.brightness.get ch = some n → n ≤ 7) ∧
      (∀ i j : Digit, d.seg.get i = d.seg.get j → i = j) ∧
      [d.pinClk.a, d.pinDio.a, d.pinClk.b, d.pinDio.b, d.pinBeam].Nodup := by
  rw [PerChannel.forall_get d.tHold (fun t => 2 ≤ t),
    PerChannel.forall_get d.brightness (fun b => ∀ n, b = some n → n ≤ 7), ← nodup_iff_get_injective]
  simp only [CfgData.wellFormed, Bool.and_eq_true, decide_eq_true_eq, brightnessOk_iff, and_assoc]

/-- Construction gives a configuration exactly when the check passes (00_scope.md R6). -/
theorem Cfg.ofData_iff (d : CfgData) : (∃ c : Cfg, Cfg.ofData d = some c ∧ c.toCfgData = d) ↔ d.wellFormed = true := by
  unfold Cfg.ofData
  split
  next h => exact ⟨fun _ => h, fun _ => ⟨_, rfl, rfl⟩⟩
  next h => exact ⟨fun ⟨_, hnone, _⟩ => (nomatch hnone), fun hw => absurd hw h⟩

/-- Settles O8: the check of `CfgData.wellFormed_iff`, the five pins pairwise different. -/
theorem illFormedConfigurationsAreRefused : Obligations.IllFormedConfigurationsAreRefused := by
  unfold Obligations.IllFormedConfigurationsAreRefused
  intro d
  rw [Cfg.ofData_iff, CfgData.wellFormed_iff]
  simp [and_assoc]

end Sys2Proof

/-!
PROOFS. The lap timer (43_lap_timer.md): its remaining operations, and the elapsed time over many updates.
-/
namespace Sys2Proof.Machine

/-- LAP_COMPLETE's answer (43_lap_timer.md R163). -/
theorem exec_lapComplete (now : Nat) (s : State) :
    exec (.lapComplete now) s = .next { s with lap := lapComplete s.cfg now s.lap, result := .none } := rfl

/-- LAP_HOLD's answer (43_lap_timer.md R166). -/
theorem exec_lapHold (s : State) : exec .lapHold s = .next { s with result := .none } := rfl

/-- Settles O21: the record, then the arm of the configured policy (43_lap_timer.md R164). -/
theorem lapCompleteRecordsTheLap : Obligations.LapCompleteRecordsTheLap := by
  unfold Obligations.LapCompleteRecordsTheLap
  intro now s
  rw [exec_lapComplete]
  refine ⟨fun hpolicy => ?restart, fun hpolicy => ?pause⟩
  case restart => rw [lapComplete, hpolicy]; rfl
  case pause => rw [lapComplete, hpolicy]; rfl

/-- Settles O24: LAP_HOLD answers the state as it is. -/
theorem lapHoldWritesNothing : Obligations.LapHoldWritesNothing := by
  unfold Obligations.LapHoldWritesNothing
  exact exec_lapHold

/-- The tick test over the integers, as the rule writes it (43_lap_timer.md R170). -/
theorem tickDue_iff_int (c : Cfg) (now r : Nat) :
    tickDue c now r = true ↔ (c.tickPeriodUs : Int) ≤ ((now : Int) - r) % 2 ^ c.tsWidth :=
  (tickDue_iff c now r).trans (le_diffW_iff c _ now r)

theorem lapUpdate_true_of_running (c : Cfg) (now : Nat) {l : LapState} (hrunning : l.running = true) :
    lapUpdate c true now l = lapComplete c now l := by
  simp [lapUpdate, hrunning]

theorem lapUpdate_of_due {c : Cfg} {now : Nat} {l : LapState} (hrunning : l.running = true)
    (hdue : tickDue c now l.tickRef = true) : lapUpdate c false now l = lapTick c l := by
  simp [lapUpdate, hrunning, hdue]

theorem lapUpdate_of_not_due {c : Cfg} {now : Nat} {l : LapState}
    (hdue : l.running = true → tickDue c now l.tickRef = false) : lapUpdate c false now l = l := by
  rcases lapUpdate_cases c false now l with ⟨hfall, _⟩ | ⟨hfall, _⟩ | ⟨_, hrunning, htick, _⟩ | ⟨_, _, e⟩
  · cases hfall
  · cases hfall
  · exact absurd (htick.symm.trans (hdue hrunning)) Bool.noConfusion
  · exact e

/-- Settles O25: the arm is chosen by the event, the running bit and the tick test. -/
theorem lapUpdateRunsExactlyOneArm : Obligations.LapUpdateRunsExactlyOneArm := by
  unfold Obligations.LapUpdateRunsExactlyOneArm
  intro fall now s
  refine ⟨_, exec_lapUpdate fall now s, ?start, ?complete, ?tick, ?hold, ?idle⟩
  case start => rintro rfl hidle; rw [exec_lapStart, lapUpdate_true_of_idle _ _ hidle]
  case complete => rintro rfl hrunning; rw [exec_lapComplete, lapUpdate_true_of_running _ _ hrunning]
  case tick =>
    rintro rfl hrunning hdue
    rw [exec_lapTick, lapUpdate_of_due hrunning ((tickDue_iff_int _ _ _).mpr hdue)]
  case hold =>
    rintro rfl _ hearly
    have hnot : tickDue s.cfg now s.lap.tickRef = false :=
      Bool.eq_false_iff.mpr fun hdue => Int.not_le.mpr hearly ((tickDue_iff_int _ _ _).mp hdue)
    rw [exec_lapHold, lapUpdate_of_not_due fun _ => hnot]
  case idle =>
    rintro rfl hidle
    rw [exec_lapHold, lapUpdate_of_not_due fun hrunning => absurd (hidle.symm.trans hrunning) Bool.noConfusion]

/-- Settles O22: the fields of a tick, its cascade in range, and the update that is one tick. -/
theorem lapTickAdvancesReferenceAndCascades : Obligations.LapTickAdvancesReferenceAndCascades := by
  unfold Obligations.LapTickAdvancesReferenceAndCascades
  intro s
  obtain ⟨hrunning, hmin, hsec, hvalid, hcount, href⟩ := lapTick_fields s.cfg s.lap
  refine ⟨lapTick s.cfg s.lap, exec_lapTick s, fun now hrun hdue => ?_, href, lapTick_elapsed s.cfg s.lap, hrunning, hmin,
    hsec, hvalid, hcount⟩
  rw [exec_lapUpdate, exec_lapTick, lapUpdate_of_due hrun ((tickDue_iff_int _ _ _).mpr hdue)]

/-- Two timers that agree but for the reference, and in it too while they run (10_state.md R29). -/
def SameTimer (l m : LapState) : Prop := { l with tickRef := m.tickRef } = m ∧ (m.running = true → l = m)

theorem SameTimer.refl (l : LapState) : SameTimer l l := ⟨rfl, fun _ => rfl⟩

theorem sameTimer_of_idle {l : LapState} (hidle : l.running = false) (r : Nat) : SameTimer { l with tickRef := r } l :=
  ⟨rfl, fun hrunning => absurd (hidle.symm.trans hrunning) Bool.noConfusion⟩

/-- An update keeps two such timers so: idle ones do not read the reference, and running ones are equal. -/
theorem lapUpdate_sameTimer {l m : LapState} (h : SameTimer l m) (c : Cfg) (fall : Bool) (now : Nat) :
    SameTimer (lapUpdate c fall now l) (lapUpdate c fall now m) := by
  obtain ⟨hsame, heq⟩ := h
  cases hrunning : m.running with
  | true => rw [heq hrunning]; exact SameTimer.refl _
  | false =>
    have hl : l = { m with tickRef := l.tickRef } := by rw [← hsame]
    rcases lapUpdate_idle_ref c fall now m l.tickRef hrunning with hupdate | ⟨hkept, hkept'⟩
    · rw [hl, hupdate]; exact SameTimer.refl _
    · rw [hl, hkept, hkept']; exact sameTimer_of_idle hrunning _

theorem updateAll_sameTimer {l m : LapState} (h : SameTimer l m) (c : Cfg) (ps : List Sample) :
    SameTimer (updateAll c ps l) (updateAll c ps m) := by
  induction ps generalizing l m with
  | nil => exact h
  | cons x ps ih => exact ih (lapUpdate_sameTimer h c x.1 x.2)

/-- Settles O50: an idle timer agrees with itself at any other reference, and updates keep that. -/
theorem idleTickReferenceIsNeverRead : Obligations.IdleTickReferenceIsNeverRead := by
  unfold Obligations.IdleTickReferenceIsNeverRead
  exact fun c _ r ps hidle => updateAll_sameTimer (sameTimer_of_idle hidle r) c ps

/-- A lap that runs since true time `start`, after `k` ticks at true time `u`: the reference is `k` periods on, the elapsed time
is `k` seconds, and less than a period has passed since the last whole one (43_lap_timer.md R169, R171). -/
structure RunsSince (c : Cfg) (start k u : Nat) (l : LapState) : Prop where
  running : l.running = true
  inRange : l.ElapsedInRange c
  elapsed : elapsedSeconds c l = k % secondsRange c
  tickRef : l.tickRef = modW c (start + k * c.tickPeriodUs)
  lower : start + k * c.tickPeriodUs ≤ u
  upper : u < start + (k + 1) * c.tickPeriodUs

theorem runsSince_lapStart {c : Cfg} (hperiod : 0 < c.tickPeriodUs) (start : Nat) (l : LapState) :
    RunsSince c start 0 start (lapStart c (start % 2 ^ c.tsWidth) l) where
  running := rfl
  inRange := ⟨Nat.zero_le _, Nat.zero_le _⟩
  elapsed := by simp [elapsedSeconds, lapStart]
  tickRef := by simp [lapStart, modW]
  lower := by omega
  upper := by omega

/-- The whole periods of a lap that runs since `start`. -/
theorem RunsSince.ticks_eq {c : Cfg} {start k u : Nat} {l : LapState} (h : RunsSince c start k u l) :
    (u - start) / c.tickPeriodUs = k := by
  obtain ⟨_, _, _, _, hlo, hhi⟩ := h
  exact Nat.div_eq_of_lt_le (by omega) (by omega)

/-- An update at most a period later, on a clock whose range is at least two periods, ticks exactly when one more whole period
has passed (43_lap_timer.md R172). -/
theorem RunsSince.update {c : Cfg} {start k u v : Nat} {l : LapState} (h : RunsSince c start k u l)
    (hrange : 2 * c.tickPeriodUs ≤ 2 ^ c.tsWidth) (hle : u ≤ v) (hgap : v ≤ u + c.tickPeriodUs) :
    ∃ k', RunsSince c start k' v (lapUpdate c false (v % 2 ^ c.tsWidth) l) := by
  obtain ⟨hrunning, hin, helapsed, href, hlo, hhi⟩ := h
  have hsucc : (k + 1) * c.tickPeriodUs = k * c.tickPeriodUs + c.tickPeriodUs := Nat.succ_mul _ _
  have hdue : tickDue c (v % 2 ^ c.tsWidth) l.tickRef = true ↔ start + (k + 1) * c.tickPeriodUs ≤ v := by
    have hdiff : diffW c (v % 2 ^ c.tsWidth) l.tickRef = v - (start + k * c.tickPeriodUs) := by
      rw [href, diffW_modW_right]
      exact (diffW_modW_left c v _).trans (diffW_of_lt c (by omega) (by omega))
    rw [tickDue_iff, hdiff]
    omega
  by_cases htick : start + (k + 1) * c.tickPeriodUs ≤ v
  · rw [lapUpdate_of_due hrunning (hdue.mpr htick)]
    obtain ⟨hrunning', _, _, _, _, href'⟩ := lapTick_fields c l
    refine ⟨k + 1, hrunning'.trans hrunning, lapTick_inRange c l hin, ?_, ?_, htick, ?_⟩
    · rw [elapsed_lapTick c l hin, helapsed, Nat.mod_add_mod]
    · rw [href', href, addW_modW, hsucc, Nat.add_assoc]
    · have hsucc' : (k + 1 + 1) * c.tickPeriodUs = (k + 1) * c.tickPeriodUs + c.tickPeriodUs := Nat.succ_mul _ _
      omega
  · rw [lapUpdate_of_not_due fun _ => Bool.eq_false_iff.mpr (htick ∘ hdue.mp)]
    exact ⟨k, hrunning, hin, helapsed, href, by omega, by omega⟩

theorem RunsSince.updateAll {c : Cfg} {start : Nat} (hrange : 2 * c.tickPeriodUs ≤ 2 ^ c.tsWidth) (times : List Nat)
    {k u : Nat} {l : LapState} (h : RunsSince c start k u l) (htimes : timesWithin c.tickPeriodUs (u :: times)) :
    ∃ k', RunsSince c start k' (times.getLastD u) (updateAll c (times.map (fun t => sampleAt c false t)) l) := by
  induction times generalizing k u l with
  | nil => exact ⟨k, h⟩
  | cons v times ih =>
    obtain ⟨hle, hgap, hrest⟩ := htimes
    obtain ⟨k', h'⟩ := h.update hrange hle hgap
    rw [List.getLastD_cons]
    exact ih h' hrest

/-- Settles O51: the lap runs since its start after every update, so its ticks are the whole periods up to the last one. -/
theorem elapsedTimeIsWholePeriodsSinceTheStart : Obligations.ElapsedTimeIsWholePeriodsSinceTheStart := by
  unfold Obligations.ElapsedTimeIsWholePeriodsSinceTheStart
  intro c l start times hperiod hrange htimes
  obtain ⟨k, h⟩ := (runsSince_lapStart hperiod start l).updateAll hrange times htimes
  rw [h.ticks_eq]
  exact ⟨h.elapsed, h.tickRef⟩

end Sys2Proof.Machine

/-!
PROOFS. Whole steps (44_render_and_step.md): the parts of a STEP, its frames on both displays, and runs of steps.
-/
namespace Sys2Proof.Machine

/-- Settles O26: each digit is the quotient or the remainder that its rule names. -/
theorem formatMmssSplitsIntoDigits : Obligations.FormatMmssSplitsIntoDigits := by
  unfold Obligations.FormatMmssSplitsIntoDigits
  exact fun m sec colon _ => ⟨formatMmss m sec colon, rfl, rfl, rfl, rfl, rfl, rfl⟩

/-- INIT's answer (44_render_and_step.md R183). -/
theorem exec_init (s : State) : exec .init s = .next { initState s with result := .none } := rfl

/-- Settles O27: INIT's registers, and the idle pins that its events leave whatever they were. -/
theorem initWritesItsRegistersAndSixEvents : Obligations.InitWritesItsRegistersAndSixEvents := by
  unfold Obligations.InitWritesItsRegistersAndSixEvents
  intro s
  rw [exec_init, initState, drive, applyEvents_init]
  rfl

/-- Settles O28: the result is the status view, field by field. -/
theorem statusReadReturnsTheView : Obligations.StatusReadReturnsTheView := by
  unfold Obligations.StatusReadReturnsTheView
  exact fun _ => rfl

/-- RENDER's answer (44_render_and_step.md R181). -/
theorem exec_render_driven (s : State) : exec .render s = .next (driven (renderEvents s.cfg s.lap) s) := rfl

/-- Settles O29: RENDER's events are those of the two frames in sequence. -/
theorem renderWritesClockThenLastLap : Obligations.RenderWritesClockThenLastLap := by
  unfold Obligations.RenderWritesClockThenLastLap
  intro s
  refine ⟨clockFrame s.cfg s.lap, lastLapFrame s.cfg s.lap, _, _, _, exec_render_driven s, rfl, rfl,
    exec_writeFrame_driven .A _ s, exec_writeFrame_driven .B _ _, ?_⟩
  rw [renderEvents, driven_append, driven_cfg]

/-- Settles O30: a STEP polls, updates and renders the state after lazy initialisation, which is the state itself or INIT's. -/
theorem stepIsItsFourParts : Obligations.StepIsItsFourParts := by
  unfold Obligations.StepIsItsFourParts
  intro raw now s
  cases hinit : s.initialized with
  | true =>
    refine ⟨s, _, _, _, _, _, if_pos rfl ▸ rfl, exec_debouncePoll raw now s, rfl, exec_lapUpdate _ now _,
      exec_render_driven _, ?_⟩
    simp only [exec, execStep, stepState, lazyInit_of_initialized hinit]
    rfl
  | false =>
    refine ⟨_, _, _, _, _, _, exec_init s, exec_debouncePoll raw now _, rfl, exec_lapUpdate _ now _,
      exec_render_driven _, ?_⟩
    simp only [exec, execStep, stepState, lazyInit_of_not hinit]
    rfl

theorem eventsOn_A_render (c : Cfg) (l : LapState) :
    eventsOn .A (renderEvents c l) = (frameSessions c .A (clockFrame c l)).flatMap (sessionEvents c .A) := by
  rw [renderEvents, eventsOn_append, eventsOn_of_own (channelOf_writeFrameEvents c .A _),
    eventsOn_of_other (channelOf_writeFrameEvents_ne c (by decide : Channel.B ≠ .A) _), List.append_nil]
  rfl

theorem eventsOn_B_render (c : Cfg) (l : LapState) :
    eventsOn .B (renderEvents c l) = (frameSessions c .B (lastLapFrame c l)).flatMap (sessionEvents c .B) := by
  rw [renderEvents, eventsOn_append, eventsOn_of_own (channelOf_writeFrameEvents c .B _),
    eventsOn_of_other (channelOf_writeFrameEvents_ne c (by decide : Channel.A ≠ .B) _), List.nil_append]
  rfl

/-- Settles O53: a STEP's events are RENDER's, whose two frames are read back on their channels. -/
theorem everyStepSendsOneFramePerDisplay : Obligations.EveryStepSendsOneFramePerDisplay := by
  unfold Obligations.EveryStepSendsOneFramePerDisplay
  intro raw now s hinit hidle
  obtain ⟨t, hexec, hcfg, _, _, _, _, htrace, hpins⟩ := exec_step_initialized hinit raw now
  refine ⟨t, _, clockFrame t.cfg t.lap, lastLapFrame t.cfg t.lap, hexec, htrace,
    hpins.trans (applyEvents_render _ _ _ hidle), rfl, rfl, ?_, ?_⟩
  · rw [hcfg]
    exact sessionsFrom_of_eventsOn (eventsOn_A_render s.cfg t.lap)
  · rw [hcfg]
    exact sessionsFrom_of_eventsOn (eventsOn_B_render s.cfg t.lap)

/-- The data wire of the channel turns only with its clock low, whatever its clock was before (70_reset_and_hazards.md R245). -/
def TurnsLow (ch : Channel) (es : List PinEvent) : Prop := ∀ clk, turnsOnlyWithClockLow ch clk es = true

theorem TurnsLow.append {ch : Channel} {es fs : List PinEvent} (hes : TurnsLow ch es) (hfs : TurnsLow ch fs) :
    TurnsLow ch (es ++ fs) := by
  intro clk
  have hfirst := hes clk
  clear hes
  induction es generalizing clk with
  | nil => exact hfs clk
  | cons e es ih =>
    cases e with
    | clk | dio | delay => exact ih _ hfirst
    | dir =>
      simp only [turnsOnlyWithClockLow, List.cons_append, Bool.and_eq_true] at hfirst ⊢
      exact ⟨hfirst.1, ih _ hfirst.2⟩

theorem TurnsLow.flatMap {α : Type} {ch : Channel} {f : α → List PinEvent} (h : ∀ a, TurnsLow ch (f a)) (as : List α) :
    TurnsLow ch (as.flatMap f) := by
  induction as with
  | nil => exact fun _ => rfl
  | cons a as ih => exact (h a).append ih

theorem turnsLow_of_other {ch : Channel} {es : List PinEvent} (hes : ∀ e ∈ es, channelOfEvent e ≠ ch) :
    TurnsLow ch es := by
  induction es with
  | nil => exact fun _ => rfl
  | cons e es ih =>
    obtain ⟨he, hrest⟩ := List.forall_mem_cons.mp hes
    intro clk
    cases e with
    | clk | dio | delay => exact ih hrest _
    | dir k d => simpa [turnsOnlyWithClockLow, show k ≠ ch from he] using ih hrest clk

/-- The window releases the data wire after the clock has fallen, and drives it again before the clock rises
(41_serial_display_driver.md R120). -/
theorem turnsLow_ackWindow (c : Cfg) (ch : Channel) : TurnsLow ch (ackWindowEvents c ch) := by
  intro clk
  rw [ackWindowEvents_eq]
  split <;> simp [turnsOnlyWithClockLow]

theorem turnsLow_session (c : Cfg) (ch : Channel) (bs : List Byte) : TurnsLow ch (sessionEvents c ch bs) := by
  have hstart : TurnsLow ch (startEvents c ch) := fun _ => rfl
  have hstop : TurnsLow ch (stopEvents c ch) := fun _ => rfl
  have hcell (v : Bool) : TurnsLow ch (bitCellEvents c ch v) := fun _ => rfl
  have hbyte (b : Byte) : TurnsLow ch (writeByteEvents c ch b) := (TurnsLow.flatMap hcell _).append (turnsLow_ackWindow c ch)
  exact (hstart.append (TurnsLow.flatMap hbyte bs)).append hstop

theorem turnsLow_writeFrame (c : Cfg) (ch k : Channel) (f : DigitFrame) : TurnsLow ch (writeFrameEvents c k f) := by
  by_cases hk : k = ch
  · subst hk
    exact TurnsLow.flatMap (turnsLow_session c k) _
  · exact turnsLow_of_other (channelOf_writeFrameEvents_ne c hk f)

/-- Settles O44: a STEP's events are two frames, each of which turns a data wire only with its clock low. -/
theorem dataWireTurnsOnlyWithClockLow : Obligations.DataWireTurnsOnlyWithClockLow := by
  unfold Obligations.DataWireTurnsOnlyWithClockLow
  intro raw now s hinit hidle
  obtain ⟨t, hexec, _, _, _, _, _, htrace, hpins⟩ := exec_step_initialized hinit raw now
  exact ⟨t, _, hexec, htrace, fun ch => (turnsLow_writeFrame s.cfg ch .A _).append (turnsLow_writeFrame s.cfg ch .B _) _,
    hpins.trans (applyEvents_render _ _ _ hidle)⟩

/-- A receiver but for its counts of markers, which no reading of a session looks at. -/
def Receiver.withoutCounts (r : Receiver) : Receiver := { r with starts := 0, stops := 0 }

theorem receive_withoutCounts (r : Receiver) (e : PinEvent) :
    (receive r.withoutCounts e).withoutCounts = (receive r e).withoutCounts := by
  simp only [receive, apply_ite Receiver.withoutCounts]
  rfl

theorem receiveAll_withoutCounts (ch : Channel) (es : List PinEvent) (r : Receiver) :
    (receiveAll ch es r.withoutCounts).withoutCounts = (receiveAll ch es r).withoutCounts := by
  induction es generalizing r with
  | nil => rfl
  | cons e es ih =>
    simp only [receiveAll]
    split
    · rw [← ih (receive r.withoutCounts e), receive_withoutCounts, ih]
    · exact ih r

/-- INIT's events open no session from any pins, and leave the idle bus. -/
theorem receiveAll_init (ch : Channel) (p : PinRegs) :
    (receiveAll ch initEvents (Receiver.idleAt p)).withoutCounts = Receiver.idleAt idlePin := by
  obtain ⟨clk, dioOut, dioDir⟩ := p
  cases ch <;> cases clk <;> cases dioOut <;> rfl

theorem sessionsFrom_init_append (ch : Channel) (p : PinRegs) (es : List PinEvent) :
    sessionsFrom p ch (initEvents ++ es) = sessionsFrom idlePin ch es := by
  have h := receiveAll_withoutCounts ch es (receiveAll ch initEvents (Receiver.idleAt p))
  rw [receiveAll_init] at h
  rw [sessionsFrom, sessionsFrom, receiveAll_append]
  exact congrArg (List.map bytesOfBits) (congrArg Receiver.closed h).symm

/-- A settled filter with a window above 0 reports nothing at its next poll (42_debounce.md R149). -/
theorem debouncePoll_of_settled {c : Cfg} {b : BeamState} (hwindow : 0 < c.debounceWindowUs)
    (hsettled : b.lastRaw = b.debounced) (raw : Bool) (now : Nat) :
    debouncePoll c raw now b =
      ({ lastRaw := raw, debounced := b.debounced, changeTs := stampAfter c raw now b }, noEdges) := by
  rcases debouncePoll_cases c raw now b with ⟨hlevel, helapsed, _⟩ | ⟨_, e⟩
  · rw [stampAfter, if_neg (hsettled ▸ hlevel), diffW_modW_right, diffW_self] at helapsed
    exact absurd helapsed (Nat.not_le.mpr hwindow)
  · exact e

theorem formatMmss_zero (colon : Bool) : formatMmss 0 0 colon = { d0 := 0, d1 := 0, d2 := 0, d3 := 0, colon := colon } := by
  revert colon
  decide

/-- INIT's elapsed time and last lap are both shown as 00:00. -/
theorem frames_initLap (c : Cfg) (l : LapState) :
    clockFrame c (initLap l) = { d0 := 0, d1 := 0, d2 := 0, d3 := 0, colon := c.colonOn } ∧
      lastLapFrame c (initLap l) = { d0 := 0, d1 := 0, d2 := 0, d3 := 0, colon := c.colonOn } :=
  ⟨formatMmss_zero c.colonOn, formatMmss_zero c.colonOn⟩

/-- Settles O55: INIT leaves a settled filter and an idle timer, so the poll reports nothing and the update holds; the frames of
RENDER on INIT's idle buses are read back. -/
theorem firstStepShowsZeroOnBothDisplays : Obligations.FirstStepShowsZeroOnBothDisplays := by
  unfold Obligations.FirstStepShowsZeroOnBothDisplays
  intro raw now s hnot hwindow
  obtain ⟨t, hexec, _, _, hinit, hbeam, hlap, htrace, hpins, _⟩ := exec_step_spec raw now s
  have hevents : lazyEvents s = initEvents := by rw [lazyEvents, hnot]; rfl
  rw [lazyInit_of_not hnot] at hbeam hlap
  rw [hevents] at htrace hpins
  have hpoll := debouncePoll_of_settled (b := (initState s).beam) hwindow rfl raw now
  rw [hpoll] at hbeam hlap
  have hlap' : t.lap = initLap s.lap := hlap.trans (lapUpdate_of_not_due (fun hrunning => absurd hrunning Bool.false_ne_true))
  refine ⟨t, _, hexec, htrace, hinit, ?idle, ?lastRaw, ?debounced, hlap', fun ch => ?sessions⟩
  case idle =>
    rw [State.BusIdle, hpins, applyEvents_append]
    exact applyEvents_render _ _ _ (applyEvents_init _)
  case lastRaw => rw [hbeam]
  case debounced => rw [hbeam]; rfl
  case sessions =>
    rw [sessionsFrom_init_append, hlap']
    cases ch with
    | A => rw [sessionsFrom_of_eventsOn (eventsOn_A_render s.cfg _), (frames_initLap s.cfg s.lap).1]
    | B => rw [sessionsFrom_of_eventsOn (eventsOn_B_render s.cfg _), (frames_initLap s.cfg s.lap).2]

/-- RENDER does not read the timer's reference. -/
theorem renderEvents_sameTimer {l m : LapState} (h : SameTimer l m) (c : Cfg) : renderEvents c l = renderEvents c m := by
  rw [← h.1]
  rfl

/-- Settles O56: after INIT the filters differ at most in a stale timestamp and the timers at most in the reference, which the
poll and the update do not read. -/
theorem registersBeforeInitHaveNoEffect : Obligations.RegistersBeforeInitHaveNoEffect := by
  unfold Obligations.RegistersBeforeInitHaveNoEffect
  intro raw now s1 s2 t1 t2 hnot1 hnot2 hcfg h1 h2
  obtain ⟨u1, hexec1, _, _, _, hbeam1, hlap1, htrace1, hpins1, _⟩ := exec_step_spec raw now s1
  obtain ⟨u2, hexec2, _, _, _, hbeam2, hlap2, htrace2, hpins2, _⟩ := exec_step_spec raw now s2
  cases hexec1.symm.trans h1
  cases hexec2.symm.trans h2
  have hevents1 : lazyEvents s1 = initEvents := by rw [lazyEvents, hnot1]; rfl
  have hevents2 : lazyEvents s2 = initEvents := by rw [lazyEvents, hnot2]; rfl
  rw [lazyInit_of_not hnot1] at hbeam1 hlap1
  rw [lazyInit_of_not hnot2, ← hcfg] at hbeam2 hlap2
  rw [hevents1] at htrace1 hpins1
  rw [hevents2, ← hcfg] at htrace2 hpins2
  have hlevel : s1.cfg.beamIdleLevel = s2.cfg.beamIdleLevel := by rw [hcfg]
  have hsettled : SameFilter (initState s1).beam (initState s2).beam :=
    ⟨hlevel, hlevel, fun hpending => absurd rfl hpending⟩
  obtain ⟨⟨hraw, hdebounced, _⟩, hedges⟩ := debouncePoll_sameFilter hsettled s1.cfg raw now
  have htimer : SameTimer t1.lap t2.lap := by
    rw [hlap1, hlap2, hedges]
    exact lapUpdate_sameTimer ⟨rfl, fun hrunning => absurd hrunning Bool.false_ne_true⟩ _ _ _
  rw [renderEvents_sameTimer htimer] at htrace1 hpins1
  rw [applyEvents_append, applyEvents_init] at hpins1 hpins2
  exact ⟨by rw [hbeam1, hbeam2, hraw], by rw [hbeam1, hbeam2, hdebounced], htimer.1, hpins1.trans hpins2.symm, _, htrace1,
    htrace2⟩

/-- A STEP before INIT is INIT and then that STEP (44_render_and_step.md R184). -/
theorem exec_step_of_not_initialized {s : State} (hnot : s.initialized = false) (raw : Bool) (now : Nat) :
    exec (.step raw now) s = exec (.step raw now) { initState s with result := .none } := by
  have hagain : lazyInit { initState s with result := .none } = { initState s with result := .none } :=
    lazyInit_of_initialized rfl
  simp only [exec, execStep, stepState, lazyInit_of_not hnot, hagain]
  rfl

/-- RENDER begins with a clock event, INIT with the direction of a data wire. -/
theorem render_does_not_begin_with_init (c : Cfg) (l : LapState) : ¬ initEvents <+: renderEvents c l := by
  rintro ⟨rest, h⟩
  have hhead : some (PinEvent.dir .A .output) = some (.clk .A true) := congrArg List.head? h
  cases hhead

theorem exec_keeps_initialized {i : Instr} {s t : State} (h : exec i s = .next t) (hs : s.initialized = true) :
    t.initialized = true := by
  cases exec_effect h with
  | driver | query | debouncePoll | lapUpdate | lapStart | lapComplete | lapTick | render => exact hs
  | init => rfl
  | step => simp only [stepState_initialized]

/-- Settles O57: the five clauses, each by its own lemma. -/
theorem initialisedIsSetOnceAndNeverCleared : Obligations.InitialisedIsSetOnceAndNeverCleared := by
  unfold Obligations.InitialisedIsSetOnceAndNeverCleared
  refine ⟨resetWith_initialized, fun s => ⟨_, exec_init s, rfl⟩, ?firstStep, ?laterStep,
    fun _ _ _ => exec_keeps_initialized⟩
  case firstStep =>
    intro raw now s u t1 t2 hnot hu h1 h2
    cases (exec_init s).symm.trans hu
    rw [exec_step_of_not_initialized hnot] at h1
    cases h1.symm.trans h2
    exact ⟨rfl, exec_keeps_initialized h2 rfl⟩
  case laterStep =>
    intro raw now s t hinit h
    obtain ⟨u, hexec, _, _, _, _, _, htrace, _⟩ := exec_step_initialized hinit raw now
    cases hexec.symm.trans h
    exact ⟨_, htrace, render_does_not_begin_with_init _ _⟩

/-- The operations of a run of steps. -/
def stepOps (ps : List Sample) : List Instr := ps.map (fun x => .step x.1 x.2)

theorem run_stepLines {s : State} {ps : List Sample} (hpending : s.pending = stepLines ps)
    (htimes : ∀ x ∈ ps, x.2 < 2 ^ 64) :
    Sys2Proof.core.run ps.length s = execAll (stepOps ps) { s with pending := [] } := by
  have hwf : ∀ i ∈ stepOps ps, i.wellFormed = true := by
    intro i hi
    obtain ⟨x, hx, rfl⟩ := List.mem_map.mp hi
    exact decide_eq_true (htimes x hx)
  have hrun := run_lines hwf (s := s) (by rw [hpending, stepLines, stepOps, List.map_map]; rfl)
  rwa [stepOps, List.length_map] at hrun

theorem execAll_next (is : List Instr) (s : State) : ∃ t, execAll is s = .next t := by
  induction is generalizing s with
  | nil => exact ⟨s, rfl⟩
  | cons i is ih =>
    obtain ⟨u, hu⟩ := exec_next i s
    obtain ⟨t, ht⟩ := ih u
    exact ⟨t, (execAll_cons is hu).trans ht⟩

/-- A run of steps polls the filter once a step and hands the timer that step's fall. -/
theorem execAll_steps_registers {ps : List Sample} {s t : State} (hinit : s.initialized = true)
    (h : execAll (stepOps ps) s = .next t) :
    t.beam = (pollAll s.cfg ps s.beam).1 ∧ t.lap = updateAll s.cfg (fallSamples s.cfg ps s.beam) s.lap ∧
      t.initialized = true ∧ (s.BusIdle → t.BusIdle) ∧ t.cfg = s.cfg ∧ t.pending = s.pending := by
  induction ps generalizing s with
  | nil => cases h; exact ⟨rfl, rfl, hinit, id, rfl, rfl⟩
  | cons x ps ih =>
    obtain ⟨u, hexec, hcfg, hpending, hinit', hbeam, hlap, _, hpins⟩ := exec_step_initialized hinit x.1 x.2
    rw [stepOps, List.map_cons, execAll_cons _ hexec] at h
    obtain ⟨hbeams, hlaps, hend, hidle, hcfgs, hpendings⟩ := ih hinit' h
    rw [hcfg, hbeam] at hbeams
    rw [hcfg, hbeam, hlap] at hlaps
    exact ⟨hbeams, hlaps, hend, fun hbus => hidle (hpins.trans (applyEvents_render _ _ _ hbus)), hcfgs.trans hcfg,
      hpendings.trans hpending⟩

/-- Settles O52: the run is the steps one after the other. -/
theorem runOfStepsThreadsFilterAndTimer : Obligations.RunOfStepsThreadsFilterAndTimer := by
  unfold Obligations.RunOfStepsThreadsFilterAndTimer
  intro s ps hinit hidle hpending htimes
  obtain ⟨t, ht⟩ := execAll_next (stepOps ps) { s with pending := [] }
  obtain ⟨hbeam, hlap, hinit', hidle', hcfg, hempty⟩ := execAll_steps_registers (s := { s with pending := [] }) hinit ht
  exact ⟨t, (run_stepLines hpending htimes).trans ht, hbeam, hlap, hinit', hidle' hidle, hcfg, hempty⟩

theorem lastLapFrame_of_sameRecord {l m : LapState} (h : l.SameRecord m) (c : Cfg) : lastLapFrame c l = lastLapFrame c m := by
  obtain ⟨hmin, hsec, _⟩ := h
  rw [lastLapFrame, lastLapFrame, hmin, hsec]

theorem LapState.SameRecord.trans {l m n : LapState} (h : l.SameRecord m) (h' : m.SameRecord n) : l.SameRecord n := by
  obtain ⟨hmin, hsec, hvalid, hcount⟩ := h
  obtain ⟨hmin', hsec', hvalid', hcount'⟩ := h'
  exact ⟨hmin.trans hmin', hsec.trans hsec', hvalid.trans hvalid', hcount.trans hcount'⟩

/-- Steps without a fall keep the record, and each renders it on channel B. -/
theorem execAll_steps_record {ps : List Sample} {s t : State} (hinit : s.initialized = true)
    (hfalls : ∀ e ∈ (pollAll s.cfg ps s.beam).2, e.fall = false) (h : execAll (stepOps ps) s = .next t) :
    t.lap.SameRecord s.lap ∧ ∃ es, t.trace = s.trace ++ es ∧
      eventsOn .B es =
        (List.replicate ps.length (frameSessions s.cfg .B (lastLapFrame s.cfg s.lap))).flatten.flatMap
          (sessionEvents s.cfg .B) := by
  induction ps generalizing s with
  | nil => cases h; exact ⟨LapState.SameRecord.refl _, [], by simp, rfl⟩
  | cons x ps ih =>
    obtain ⟨u, hexec, hcfg, _, hinit', hbeam, hlap, htrace, _⟩ := exec_step_initialized hinit x.1 x.2
    rw [stepOps, List.map_cons, execAll_cons _ hexec] at h
    obtain ⟨hfall, hrest⟩ := List.forall_mem_cons.mp hfalls
    obtain ⟨hkept, es, hes, heventsOn⟩ := ih hinit' (by rw [hcfg, hbeam]; exact hrest) h
    have hsame : u.lap.SameRecord s.lap := by
      rw [hlap]
      exact (lapUpdate_completes_or_sameRecord _ _ _ _).resolve_left fun ⟨hbreak, _⟩ =>
        Bool.false_ne_true (hfall.symm.trans hbreak)
    refine ⟨hkept.trans hsame, renderEvents s.cfg u.lap ++ es, by rw [hes, htrace, List.append_assoc], ?_⟩
    rw [eventsOn_append, eventsOn_B_render, heventsOn, hcfg, lastLapFrame_of_sameRecord hsame, List.length_cons,
      List.replicate_succ, List.flatten_cons, List.flatMap_append]

/-- Settles O54: the run is the steps one after the other, whose frames on channel B are read back. -/
theorem lastLapPersistsUnderPolling : Obligations.LastLapPersistsUnderPolling := by
  unfold Obligations.LastLapPersistsUnderPolling
  intro s ps hinit _ hpending htimes hfalls
  obtain ⟨t, ht⟩ := execAll_next (stepOps ps) { s with pending := [] }
  obtain ⟨⟨hmin, hsec, hvalid, hcount⟩, es, htrace, heventsOn⟩ :=
    execAll_steps_record (s := { s with pending := [] }) hinit hfalls ht
  exact ⟨t, es, (run_stepLines hpending htimes).trans ht, htrace, hmin, hsec, hvalid, hcount,
    sessionsFrom_of_eventsOn heventsOn⟩

end Sys2Proof.Machine
